-- ==== Sys2Proof/Word.lean ====
section
/-! DEFINITION. The bit-vector types of the Grain-128 keystream generator core (spec/00_scope.md R4,
spec/30_encoding.md R31, R36). Bit `i` of a vector is the spec's bit `i`; bit 0 is the least significant. -/

namespace Sys2Proof

/-- A byte; bit 0 is the least-significant bit (00_scope.md section 5.1). -/
abbrev Byte := BitVec 8

/-- The integer view of one shift register: bit `i` is `X[i]`, index 0 the oldest bit, index 127 the newest
(10_state.md R5, 00_scope.md section 5.1). -/
abbrev Register := BitVec 128

/-- The `key` input bus (20_memory.md R20). -/
abbrev KeyBus := BitVec 128

/-- The `iv` input bus (20_memory.md R21). -/
abbrev IvBus := BitVec 96

/-- A length sideband field, `klen` or `ivlen` (30_encoding.md R33). -/
abbrev LenField := BitVec 5

/-- The input vector `IW` presented for one edge (30_encoding.md R31). -/
abbrev InputVector := BitVec 237

/-- The warm-up counter `cnt`: 9 bits (10_state.md R9). -/
abbrev Count := BitVec 9

end Sys2Proof
end

