-- ==== Sys2Proof/Config.lean ====
section
/-! DEFINITION. The fixed parameters of the core (spec/00_scope.md R4) and its two free values, the unspecified
contents of L and N after a RESET (spec/10_state.md R16, spec/92_eei_decisions.md D4). -/

namespace Sys2Proof

/-- KEYBYTES: the only accepted key length, in bytes (R2, R4). -/
abbrev Config.keyBytes : Nat := 16

/-- IVBYTES: the only accepted IV length, in bytes (R2, R4). -/
abbrev Config.ivBytes : Nat := 12

/-- PADVAL: the 32 ones loaded into L[96..127] (R4, R55). -/
abbrev Config.padding : BitVec 32 := 0xFFFFFFFF#32

/-- INITCLKS: the number of init-clocks after an accepted LOAD (R4, R57). Irreducible so that no defeq check of a
proof runs the 256 clocks; the kernel computes with it as with any numeral. -/
@[irreducible] def Config.initClocks : Nat := 256

/-- FREE VALUE (log entry 1). `RESET_L`: what the `k`-th RESET leaves in L; unspecified, possibly different at
every reset (R16). It has no body that a proof can see. -/
opaque Config.resetL : Nat → Register

/-- FREE VALUE (log entry 1). `RESET_N`: what the `k`-th RESET leaves in N; unspecified, possibly different at
every reset (R16). It has no body that a proof can see. -/
opaque Config.resetN : Nat → Register

end Sys2Proof
end

