-- ==== Sys2Proof/Machine/Operands.lean ====
section
/-! DEFINITION. The operand forms: byte strings and bit sequences (`expand`, `pack`), the key and IV buses, the
length sidebands, and the two registers an accepted LOAD writes (spec/20_memory.md R19 to R23,
spec/30_encoding.md R33, spec/42_commands.md R55). -/

namespace Sys2Proof.Machine

/-- Bit `i` of `expand(B)`: bit `i mod 8` of byte `i div 8` (R19). -/
def expandBit (B : List Byte) (i : Nat) : Bool := (B.getD (i / 8) 0).getLsbD (i % 8)

/-- `expand(B)`, bit 0 first (R19). -/
def expand (B : List Byte) : List Bool := (List.range (8 * B.length)).map (expandBit B)

/-- The unsigned integer of a bit sequence: the sum of `b[i] * 2^i` (R19). -/
def bitsValue : List Bool → Nat
  | [] => 0
  | b :: bs => b.toNat + 2 * bitsValue bs

/-- Byte `j` of `pack(s)`: the sum over `i` in 0..7 of `s[8j + i] * 2^i` (R22). -/
def packByte (s : List Bool) (j : Nat) : Byte :=
  BitVec.ofNat 8 (bitsValue ((List.range 8).map fun i => s.getD (8 * j + i) false))

/-- `pack(s)`, byte 0 first (R22). -/
def pack (s : List Bool) : List Byte := (List.range (s.length / 8)).map (packByte s)

/-- Bytewise xor, on each bit position independently (R48, R64). -/
def xorBytes (a b : List Byte) : List Byte := List.zipWith (· ^^^ ·) a b

/-- A length as the sideband carries it: saturating at 31 (R33). -/
def lenField (n : Nat) : LenField := BitVec.ofNat 5 (min n 31)

/-- The `key` bus for a key byte string: `expand` when it has 16 bytes, else 0 (R20, R61). -/
def keyBus (K : List Byte) : KeyBus :=
  if K.length = Config.keyBytes then BitVec.ofNat 128 (bitsValue (expand K)) else 0

/-- The `iv` bus for an IV byte string: `expand` when it has 12 bytes, else 0 (R21, R61). -/
def ivBus (V : List Byte) : IvBus :=
  if V.length = Config.ivBytes then BitVec.ofNat 96 (bitsValue (expand V)) else 0

/-- N after an accepted LOAD: the key bus verbatim (R55). -/
def loadedN (key : KeyBus) : Register := key

/-- L after an accepted LOAD: the IV bus in L[0..95], ones in L[96..127] (R55). -/
def loadedL (iv : IvBus) : Register := Config.padding ++ iv

end Sys2Proof.Machine
end

