-- ==== Sys2Proof/Syntax.lean ====
section
/-! DEFINITION. The instructions: one constructor of `Instr` for every row of spec/opcode_table.json; the phases
and commands that select among them; what the host can ask for (an input vector at the pins, or a call of a
macro-operation); and the statements of the spec's program text (spec/30_encoding.md R40, R41). -/

namespace Sys2Proof

/-- The three values of the control state `phase` (10_state.md R8). -/
inductive Phase where
  /-- Nothing has been loaded since reset. -/
  | idle
  /-- A load has been accepted and fewer than 256 init-clocks have been applied. -/
  | init
  /-- The 256th init-clock has been applied. -/
  | run
  deriving DecidableEq, Repr

/-- The four command codes of the `cmd` port (30_encoding.md R32). -/
inductive Cmd where
  /-- `00` -/
  | nop
  /-- `01` -/
  | load
  /-- `10` -/
  | next
  /-- `11`, reserved -/
  | rsvd
  deriving DecidableEq, Repr

/-- The names of the two shift registers (10_state.md R6). -/
inductive RegName where
  /-- The Linear register. -/
  | L
  /-- The Nonlinear register. -/
  | N
  deriving DecidableEq, Repr

/-- One constructor for every row of spec/opcode_table.json, in the table's order. A constructor carries the
fields its row reads; a don't-care field of the input vector is no operand (30_encoding.md R38). -/
inductive Instr where
  /-- RESET: an edge with `rst = 1` (R87). -/
  | reset
  /-- NOP: `cmd = 00` (R54). -/
  | nop
  /-- LOAD: `cmd = 01` with its four operands (R55). -/
  | load (klen ivlen : LenField) (key : KeyBus) (iv : IvBus)
  /-- NEXT: `cmd = 10` (R58). -/
  | next
  /-- RSVD: `cmd = 11` (R59). -/
  | rsvd
  /-- ICLK: the warm-up step every edge with `rst = 0` performs while `phase = INIT`; `cmd` affects `resp` only
  (R49, R57). -/
  | iclk (cmd : Cmd)
  /-- GCLK: the generation-clock an accepted NEXT performs (R50). -/
  | gclk
  /-- INITIALIZE(K, V), byte strings of any length (R61). -/
  | initialise (K V : List Byte)
  /-- WAIT: 256 NOPs (R41, R61). -/
  | wait
  /-- NEXT_BIT() (R62). -/
  | nextBit
  /-- NEXT_BYTES(n) or NEXT_BYTES(n, outlen) (R63). -/
  | nextBytes (n : Nat) (outlen : Option Nat)
  /-- PROCESS(K, V, B) or PROCESS(K, V, B, outlen) (R64). -/
  | process (K V B : List Byte) (outlen : Option Nat)
  /-- SHIFT: `X <- shift(X, b)` on one register (R42). -/
  | shift (r : RegName) (b : Bool)
  /-- FL: the linear feedback bit of L (R43). -/
  | fl
  /-- FN: the nonlinear feedback bit of L and N (R45). -/
  | fn
  /-- Z: the output-filter bit of L and N (R46). -/
  | z
  deriving DecidableEq, Repr

/-- The macro-operations: what a host calls by name, because they have no encoding of their own
(30_encoding.md R41). -/
inductive MacroCall where
  | initialise (K V : List Byte)
  | wait
  | nextBit
  | nextBytes (n : Nat) (outlen : Option Nat)
  | process (K V B : List Byte) (outlen : Option Nat)
  deriving DecidableEq, Repr

/-- The instruction a macro-operation's call runs. -/
def MacroCall.toInstr : MacroCall → Instr
  | .initialise K V => .initialise K V
  | .wait => .wait
  | .nextBit => .nextBit
  | .nextBytes n o => .nextBytes n o
  | .process K V B o => .process K V B o

/-- What the host asks of the core next: to sample one input vector at one edge (70_reset_and_hazards.md R97), or
to perform one macro-operation through the adapter (R97's run at the macro level). -/
inductive Request where
  | vector (w : InputVector)
  | call (m : MacroCall)
  deriving DecidableEq, Repr

/-- A statement of the spec's program text, its byte strings already read from hexadecimal (30_encoding.md R40,
R41). `rep` is the repeat count `xN`; `none` is a field the text leaves out, which then has its default. -/
inductive Statement where
  | reset
  | nop (rep : Option Nat)
  | load (key iv : List Byte) (klen ivlen : Option Nat)
  | next (rep : Option Nat)
  | rsvd
  | pseudo (m : MacroCall)
  deriving DecidableEq, Repr

end Sys2Proof
end

