-- ==== Sys2Proof/WellFormed.lean ====
section
/-! DEFINITION. What may be selected and written: which operation an edge can select in a phase
(spec/30_encoding.md R39), which operations a host may call by name (R41), and which statements of the program
text are legal (R40). -/

namespace Sys2Proof

/-- `i` is what an edge can select in phase `p`, by the opcode map of R39: RESET in every phase; the warm-up step
in INIT; NOP, LOAD, NEXT and RSVD in IDLE and RUN. GCLK is performed by NEXT and not selected, a macro-operation
has no encoding, and the four functions are not selectable by the host. -/
def Instr.atPins (p : Phase) (i : Instr) : Bool :=
  match i with
  | .reset => true
  | .nop => p ≠ .init
  | .load _ _ _ _ => p ≠ .init
  | .next => p ≠ .init
  | .rsvd => p ≠ .init
  | .iclk _ => p = .init
  | .gclk => false
  | .initialise _ _ => false
  | .wait => false
  | .nextBit => false
  | .nextBytes _ _ => false
  | .process _ _ _ _ => false
  | .shift _ _ => false
  | .fl => false
  | .fn => false
  | .z => false

/-- `i` is a macro-operation, which a host calls by name (R41). -/
def Instr.callable (i : Instr) : Bool :=
  match i with
  | .reset => false
  | .nop => false
  | .load _ _ _ _ => false
  | .next => false
  | .rsvd => false
  | .iclk _ => false
  | .gclk => false
  | .initialise _ _ => true
  | .wait => true
  | .nextBit => true
  | .nextBytes _ _ => true
  | .process _ _ _ _ => true
  | .shift _ _ => false
  | .fl => false
  | .fn => false
  | .z => false

/-- `i` is well-formed in phase `p`: an edge can select it there, or a host can call it. -/
def Instr.wellFormed (p : Phase) (i : Instr) : Bool := i.atPins p || i.callable

/-- A legal statement of the program text: `key=` takes exactly 16 bytes, `iv=` exactly 12, and `klen` and `ivlen`
are 0..31 (R40). -/
def Statement.wellFormed (t : Statement) : Bool :=
  match t with
  | .load key iv klen ivlen =>
    key.length = Config.keyBytes && iv.length = Config.ivBytes && klen.getD Config.keyBytes ≤ 31
      && ivlen.getD Config.ivBytes ≤ 31
  | .reset => true
  | .nop _ => true
  | .next _ => true
  | .rsvd => true
  | .pseudo _ => true

end Sys2Proof
end

