-- ==== Sys2Proof/Decode.lean ====
section
/-! DEFINITION. Decoding an input vector (spec/30_encoding.md R31, R32, R39) and, after it, encoding
(R31, R32, R40) and assembling the program text (R40, R41), with the opcode table's match and mask values. -/

namespace Sys2Proof

/-! ## Fields of the input vector (R31) -/

/-- `rst`, `IW[0]`. -/
def iwRst (w : InputVector) : Bool := w.getLsbD 0

/-- `cmd`, `IW[2:1]`. -/
def iwCmdBits (w : InputVector) : BitVec 2 := w.extractLsb' 1 2

/-- `klen`, `IW[7:3]`. -/
def iwKlen (w : InputVector) : LenField := w.extractLsb' 3 5

/-- `ivlen`, `IW[12:8]`. -/
def iwIvlen (w : InputVector) : LenField := w.extractLsb' 8 5

/-- `key`, `IW[140:13]`. -/
def iwKey (w : InputVector) : KeyBus := w.extractLsb' 13 128

/-- `iv`, `IW[236:141]`. -/
def iwIv (w : InputVector) : IvBus := w.extractLsb' 141 96

/-- The command a code names (R32). -/
def cmdOfBits (c : BitVec 2) : Cmd :=
  if c = 0b00#2 then .nop
  else if c = 0b01#2 then .load
  else if c = 0b10#2 then .next
  else .rsvd

/-- The command of an input vector. -/
def iwCmd (w : InputVector) : Cmd := cmdOfBits (iwCmdBits w)

/-! ## Decode -/

/-- The operation an edge in phase `p` selects, the first line of R39 that applies; total on every vector. -/
def decode (p : Phase) (w : InputVector) : Instr :=
  if iwRst w then .reset
  else if p = .init then .iclk (iwCmd w)
  else match iwCmd w with
    | .nop => .nop
    | .load => .load (iwKlen w) (iwIvlen w) (iwKey w) (iwIv w)
    | .next => .next
    | .rsvd => .rsvd

/-- Why a number is no input vector. -/
inductive DecodeError where
  /-- A bit above `IW[236]` is 1: a listing's top three bits are always 0 (R31). -/
  | tooWide
  deriving DecidableEq, Repr

/-- Decoding the number of a listing (R31): refused by name where it does not fit `IW`. -/
def decodeNumber (p : Phase) (w : Nat) : Except DecodeError Instr :=
  if w < 2 ^ 237 then .ok (decode p (BitVec.ofNat 237 w)) else .error .tooWide

/-- What the decoder reads from an instruction whose bits are `w`, in the phase a RESET leaves (IDLE); the bits
above `nbits` are 0. -/
def decodeTableWord (nbits w : Nat) : Option Instr :=
  match decodeNumber .idle (w % 2 ^ nbits) with
  | .ok i => some i
  | .error _ => none

/-! ## Encode -/

/-- The code of a command (R32). -/
def cmdBits (c : Cmd) : BitVec 2 :=
  match c with
  | .nop => 0b00#2
  | .load => 0b01#2
  | .next => 0b10#2
  | .rsvd => 0b11#2

/-- `IW` with `iv` in the most significant place and `rst` in the least (R31). -/
def packVector (rst : Bool) (cmd : Cmd) (klen ivlen : LenField) (key : KeyBus) (iv : IvBus) : InputVector :=
  iv ++ key ++ ivlen ++ klen ++ cmdBits cmd ++ BitVec.ofBool rst

/-- The input vector of a LOAD. -/
def loadVector (klen ivlen : LenField) (key : KeyBus) (iv : IvBus) : InputVector :=
  packVector false .load klen ivlen key iv

/-- The input vector of a command with every don't-care field 0, the canonical value (R38). -/
def commandVector (c : Cmd) : InputVector := packVector false c 0 0 0 0

/-- The input vector of RESET with every don't-care field 0. -/
def resetVector : InputVector := packVector true .nop 0 0 0 0

/-- The input vector an instruction is presented as: none for a macro-operation, which has no encoding of its own
(R41), and none for a function, which no bit of IW selects. -/
def encode (i : Instr) : Option InputVector :=
  match i with
  | .reset => some resetVector
  | .nop => some (commandVector .nop)
  | .load klen ivlen key iv => some (loadVector klen ivlen key iv)
  | .next => some (commandVector .next)
  | .rsvd => some (commandVector .rsvd)
  | .iclk c => some (commandVector c)
  | .gclk => some (commandVector .next)
  | .initialise _ _ => none
  | .wait => none
  | .nextBit => none
  | .nextBytes _ _ => none
  | .process _ _ _ _ => none
  | .shift _ _ => none
  | .fl => none
  | .fn => none
  | .z => none

/-! ## Macro-operations as input vectors (R41) -/

/-- The LOAD that INITIALIZE(K, V) presents (R61). -/
def initialiseVector (K V : List Byte) : InputVector :=
  loadVector (Machine.lenField K.length) (Machine.lenField V.length) (Machine.keyBus K) (Machine.ivBus V)

/-- The input vectors of WAIT: `NOP x256` (R41). -/
def waitVectors : List InputVector := List.replicate Config.initClocks (commandVector .nop)

/-- The input vectors a macro-operation that raises nothing presents, in order (R41, R61 to R64). -/
def expansion (m : MacroCall) : List InputVector :=
  match m with
  | .initialise K V => initialiseVector K V :: waitVectors
  | .wait => waitVectors
  | .nextBit => [commandVector .next]
  | .nextBytes n _ => List.replicate (8 * n) (commandVector .next)
  | .process K V B _ => initialiseVector K V :: waitVectors ++ List.replicate (8 * B.length) (commandVector .next)

/-! ## The opcode table's match and mask -/

/-- The row's "mask", on `IW[2:0]`; the row of a macro-operation gives the first vector of its expansion. -/
def rowMask (i : Instr) : InputVector :=
  match i with
  | .reset => 0x1
  | .nop => 0x7
  | .load _ _ _ _ => 0x7
  | .next => 0x7
  | .rsvd => 0x7
  | .iclk _ => 0x1
  | .gclk => 0x7
  | .initialise _ _ => 0x7
  | .wait => 0x7
  | .nextBit => 0x7
  | .nextBytes _ _ => 0x7
  | .process _ _ _ _ => 0x7
  | .shift _ _ => 0x0
  | .fl => 0x0
  | .fn => 0x0
  | .z => 0x0

/-- The row's "match", on `IW[2:0]`. -/
def rowMatch (i : Instr) : InputVector :=
  match i with
  | .reset => 0x1
  | .nop => 0x0
  | .load _ _ _ _ => 0x2
  | .next => 0x4
  | .rsvd => 0x6
  | .iclk _ => 0x0
  | .gclk => 0x4
  | .initialise _ _ => 0x2
  | .wait => 0x0
  | .nextBit => 0x4
  | .nextBytes _ _ => 0x4
  | .process _ _ _ _ => 0x2
  | .shift _ _ => 0x0
  | .fl => 0x0
  | .fn => 0x0
  | .z => 0x0

/-- The first input vector an instruction presents: its encoding, or the head of its expansion. -/
def firstVector (i : Instr) : Option InputVector :=
  match i with
  | .reset => encode .reset
  | .nop => encode .nop
  | .load klen ivlen key iv => encode (.load klen ivlen key iv)
  | .next => encode .next
  | .rsvd => encode .rsvd
  | .iclk c => encode (.iclk c)
  | .gclk => encode .gclk
  | .initialise K V => (expansion (.initialise K V)).head?
  | .wait => (expansion .wait).head?
  | .nextBit => (expansion .nextBit).head?
  | .nextBytes n o => (expansion (.nextBytes n o)).head?
  | .process K V B o => (expansion (.process K V B o)).head?
  | .shift _ _ => none
  | .fl => none
  | .fn => none
  | .z => none

/-! ## The program text (R40, R41) -/

/-- Why a statement of the program text assembles to nothing. -/
inductive AssembleError where
  /-- A LOAD statement whose `key=` is not 16 bytes, whose `iv=` is not 12, or whose `klen` or `ivlen` is above 31. -/
  | illegalLoad
  deriving DecidableEq, Repr

/-- The requests a legal statement assembles to: with its repeat count `N` (default 1), `N` input vectors with
don't-care fields 0; `klen` and `ivlen` default to 16 and 12; a pseudo-instruction is one call (R40, R41).
DESIGN CHOICE (log entry 10): R40 gives an illegal statement no vector, so it is refused by name; nothing is padded,
truncated or taken modulo 32. -/
def assemble (t : Statement) : Except AssembleError (List Request) :=
  if t.wellFormed then
    .ok (match t with
      | .reset => [.vector resetVector]
      | .nop rep => List.replicate (rep.getD 1) (.vector (commandVector .nop))
      | .load key iv klen ivlen =>
        [.vector (loadVector (BitVec.ofNat 5 (klen.getD Config.keyBytes)) (BitVec.ofNat 5 (ivlen.getD Config.ivBytes))
          (Machine.keyBus key) (Machine.ivBus iv))]
      | .next rep => List.replicate (rep.getD 1) (.vector (commandVector .next))
      | .rsvd => [.vector (commandVector .rsvd)]
      | .pseudo m => [.call m])
  else .error .illegalLoad

/-- A program text, statement after statement; one illegal statement makes the text illegal (log entry 10). -/
def assembleAll : List Statement → Except AssembleError (List Request)
  | [] => .ok []
  | t :: ts =>
    match assemble t with
    | .error e => .error e
    | .ok qs =>
      match assembleAll ts with
      | .error e => .error e
      | .ok rest => .ok (qs ++ rest)

end Sys2Proof
end

