-- ==== Sys2Proof/Machine/Networks.lean ====
section
/-! DEFINITION. The shift, the three Boolean networks and the two clock modes as pure functions of the registers
(spec/40_networks.md R42 to R47, spec/41_clocking.md R49 to R52). -/

namespace Sys2Proof.Machine

/-- `shift(X, b)`: index `i` moves to `i - 1`, `b` enters at index 127, `X[0]` is dropped (R42). -/
def shift (X : Register) (b : Bool) : Register := BitVec.cons b (X.extractLsb' 1 127)

/-- `fL(L)` (R43). -/
def fL (L : Register) : Bool :=
  L.getLsbD 0 ^^ L.getLsbD 7 ^^ L.getLsbD 38 ^^ L.getLsbD 70 ^^ L.getLsbD 81 ^^ L.getLsbD 96

/-- The linear taps of `fN(L, N)`: `base` (R45). -/
def fNBase (L N : Register) : Bool :=
  N.getLsbD 0 ^^ N.getLsbD 26 ^^ N.getLsbD 56 ^^ N.getLsbD 91 ^^ N.getLsbD 96 ^^ L.getLsbD 0

/-- The seven products of `fN(L, N)`: `andterms` (R45). -/
def fNAndTerms (N : Register) : Bool :=
  (N.getLsbD 3 && N.getLsbD 67) ^^ (N.getLsbD 11 && N.getLsbD 13) ^^ (N.getLsbD 17 && N.getLsbD 18)
    ^^ (N.getLsbD 27 && N.getLsbD 59) ^^ (N.getLsbD 40 && N.getLsbD 48) ^^ (N.getLsbD 61 && N.getLsbD 65)
    ^^ (N.getLsbD 68 && N.getLsbD 84)

/-- `fN(L, N)` (R45). -/
def fN (L N : Register) : Bool := fNBase L N ^^ fNAndTerms N

/-- `z(L, N)`, the output filter (R46). -/
def z (L N : Register) : Bool :=
  N.getLsbD 2 ^^ N.getLsbD 15 ^^ N.getLsbD 36 ^^ N.getLsbD 45 ^^ N.getLsbD 64 ^^ N.getLsbD 73 ^^ N.getLsbD 89
    ^^ L.getLsbD 93
    ^^ (N.getLsbD 12 && N.getLsbD 95 && L.getLsbD 95) ^^ (N.getLsbD 12 && L.getLsbD 8)
    ^^ (L.getLsbD 13 && L.getLsbD 20) ^^ (N.getLsbD 95 && L.getLsbD 42) ^^ (L.getLsbD 60 && L.getLsbD 79)

/-- One clock with the bit `y` mixed into both incoming bits, every network read before either shift
(R47, R49, R51). -/
def mixedClock (y : Bool) (r : Register × Register) : Register × Register :=
  (shift r.1 (fL r.1 ^^ y), shift r.2 (fN r.1 r.2 ^^ y))

/-- ICLK on the pair (L, N): `y = z(L, N)` (R49). -/
def iclk (r : Register × Register) : Register × Register := mixedClock (z r.1 r.2) r

/-- GCLK on the pair (L, N): both incoming bits unmixed (R50). -/
def gclk (r : Register × Register) : Register × Register := (shift r.1 (fL r.1), shift r.2 (fN r.1 r.2))

end Sys2Proof.Machine
end

