-- ==== Sys2Proof/Machine/State.lean ====
section
/-! DEFINITION. The state of one core instance and of what stands at its pins, the reasons a step can stop, and
the state just after a RESET (spec/10_state.md; spec/70_reset_and_hazards.md R87, R97). -/

namespace Sys2Proof.Machine

/-- The response codes (30_encoding.md R34); `111` is reserved and no code of this type (R34, U10). -/
inductive Resp where
  /-- `000` -/
  | ok
  /-- `001`, InvalidKeyLength -/
  | eKeyLen
  /-- `010`, InvalidIvLength -/
  | eIvLen
  /-- `011`, BufferLengthMismatch: in the adapter's reports only, never driven by the core (R72) -/
  | eBufLen
  /-- `100`, NEXT while `phase = IDLE` -/
  | eNotReady
  /-- `101`, a command other than NOP while `phase = INIT` -/
  | eBusy
  /-- `110`, `cmd = 11` while `phase` is IDLE or RUN -/
  | eIllCmd
  deriving DecidableEq, Repr

/-- The named errors a macro-operation reports (60_exceptions.md R72, R73, R77). -/
inductive MacroError where
  | notReady
  | invalidKeyLength
  | invalidIvLength
  | bufferLengthMismatch
  deriving DecidableEq, Repr

/-- What a macro-operation hands back to its caller (43_macros.md; 70_reset_and_hazards.md R97). -/
inductive Result where
  /-- Completed; the operation has no result (INITIALIZE, WAIT). -/
  | done
  /-- The bit of NEXT_BIT. -/
  | bit (b : Bool)
  /-- The bytes of NEXT_BYTES and PROCESS. -/
  | bytes (bs : List Byte)
  /-- A named error; nothing else is returned. -/
  | error (e : MacroError)
  deriving DecidableEq, Repr

/-- What the host observes of one edge (R97): `resp` during the step and the three Moore outputs after it;
`taken` is the keystream bit consumed at the edge, the pre-edge `z_out` of a NEXT answered OK (R58, R97). -/
structure Sample where
  resp : Resp
  taken : Option Bool
  ready : Bool
  busy : Bool
  zOut : Bool
  deriving DecidableEq, Repr

/-- The whole state. The first four fields are the core's (10_state.md: "The whole state of one core instance is
four items"); the others are the model's own record of the host's side, named in the assumption log. -/
structure State where
  /-- The Linear register (R5, R6). -/
  L : Register
  /-- The Nonlinear register (R5, R6). -/
  N : Register
  /-- The control state `phase` (R8). -/
  phase : Phase
  /-- The number of init-clocks since the last accepted LOAD (R9). -/
  cnt : Count
  /-- The model's own: how many RESETs have drawn their free register contents (log entry 1). -/
  draws : Nat
  /-- The model's own: what the host will still ask for, next first (R97; log entry 2). -/
  inputs : List Request
  /-- The model's own: what the host has observed edge by edge, newest first (R97; log entry 3). -/
  trace : List Sample
  /-- The model's own: the results of the macro-operations, newest first (R97; log entry 3). -/
  results : List Result
  /-- The model's own: the bit of the last FL, FN or Z evaluated as an instruction (log entry 4). -/
  wire : Bool
  deriving DecidableEq, Repr

/-- No step of this core faults: "The core never halts, never traps into a terminal state and has no stuck state"
(R97), so this type has no constructor. -/
inductive Fault where
  deriving DecidableEq, Repr

/-- The reasons a step has no next state. -/
inductive Refusal where
  /-- Raised by `exec` for an instruction that has no meaning yet; no arm raises it any more. Safe. -/
  | notModelled (mnemonic : String)
  /-- Raised by `step` when the host's input sequence is used up: the run has ended (R97). Safe. -/
  | endOfRun
  deriving DecidableEq, Repr

/-- The state just after a RESET (R16, R87): IDLE, `cnt = 0`, L and N the free values of the first draw, nothing
asked for, observed or returned yet. -/
def State.reset : State where
  L := Config.resetL 0
  N := Config.resetN 0
  phase := .idle
  cnt := 0
  draws := 1
  inputs := []
  trace := []
  results := []
  wire := false

end Sys2Proof.Machine
end

