-- ==== Sys2Proof/Machine/Flags.lean ====
section
/-! DEFINITION. The outputs `ready`, `busy`, `z_out` and `resp` and the codes of `phase` and `resp`
(spec/10_state.md R13, spec/30_encoding.md R34, R35, spec/42_commands.md R60, spec/60_exceptions.md R74, R77). -/

namespace Sys2Proof.Machine

/-- `ready = 1` iff `phase = RUN` (R13). -/
def ready (s : State) : Bool := s.phase = .run

/-- `busy = 1` iff `phase = INIT` (R13). -/
def busy (s : State) : Bool := s.phase = .init

/-- `z_out`: the filter bit while `phase = RUN`, else 0 (R60). -/
def zOut (s : State) : Bool := if s.phase = .run then z s.L s.N else false

/-- `resp` while the vector `w` is presented for the coming edge: the first condition of R77 that holds. -/
def respAt (s : State) (w : InputVector) : Resp :=
  if iwRst w then .ok
  else if s.phase = .init ∧ iwCmd w ≠ .nop then .eBusy
  else if s.phase = .init then .ok
  else if iwCmd w = .rsvd then .eIllCmd
  else if iwCmd w = .load ∧ iwKlen w ≠ 16 then .eKeyLen
  else if iwCmd w = .load ∧ iwIvlen w ≠ 12 then .eIvLen
  else if iwCmd w = .next ∧ s.phase = .idle then .eNotReady
  else .ok

/-- The `resp` port between two edges: it answers the vector presented for the coming edge, so it has a value only
while one is presented (R60). -/
def respPort (s : State) : Option Resp :=
  match s.inputs with
  | .vector w :: _ => some (respAt s w)
  | _ => none

/-- The number of a response code (R34). -/
def respBits (r : Resp) : BitVec 3 :=
  match r with
  | .ok => 0b000#3
  | .eKeyLen => 0b001#3
  | .eIvLen => 0b010#3
  | .eBufLen => 0b011#3
  | .eNotReady => 0b100#3
  | .eBusy => 0b101#3
  | .eIllCmd => 0b110#3

/-- The code that belongs to a macro-operation's named error (R74). -/
def macroErrorResp (e : MacroError) : Resp :=
  match e with
  | .notReady => .eNotReady
  | .invalidKeyLength => .eKeyLen
  | .invalidIvLength => .eIvLen
  | .bufferLengthMismatch => .eBufLen

/-- The two-bit encoding of `phase` (R35). -/
def phaseBits (p : Phase) : BitVec 2 :=
  match p with
  | .idle => 0b00#2
  | .init => 0b01#2
  | .run => 0b10#2

end Sys2Proof.Machine
end

