-- ==== Sys2Proof/Machine/Ops.lean ====
section
/-! DEFINITION. The named operations over the state: register access, one clock edge's observation, the one shared
refusal (the core's only form of exception, spec/60_exceptions.md R76; nothing returns from it, R78), and what an
edge does with each command (spec/42_commands.md R53 to R59, spec/70_reset_and_hazards.md R87). -/

namespace Sys2Proof.Machine

/-! ## Register and record updates -/

/-- Both registers written at one edge (R51, R55). -/
def setRegs (r : Register × Register) (s : State) : State := { s with L := r.1, N := r.2 }

/-- The control state written at one edge. -/
def setControl (p : Phase) (c : Count) (s : State) : State := { s with phase := p, cnt := c }

/-- One register read by name. -/
def readReg (r : RegName) (s : State) : Register :=
  match r with
  | .L => s.L
  | .N => s.N

/-- One register written by name. -/
def writeReg (r : RegName) (X : Register) (s : State) : State :=
  match r with
  | .L => { s with L := X }
  | .N => { s with N := X }

/-- The bit of a network evaluated as an instruction of its own. -/
def setWire (b : Bool) (s : State) : State := { s with wire := b }

/-- A macro-operation hands its result to the caller (R97). -/
def deliver (r : Result) (s : State) : State := { s with results := r :: s.results }

/-- The host's next request is taken from the front of its sequence. -/
def withInputs (rest : List Request) (s : State) : State := { s with inputs := rest }

/-- The host observes an edge: `resp` during it, the keystream bit it consumed, and the Moore outputs after it
(R60, R97). -/
def observed (r : Resp) (taken : Option Bool) (s : State) : State :=
  { s with trace := { resp := r, taken := taken, ready := ready s, busy := busy s, zOut := zOut s } :: s.trace }

/-! ## Refusal -/

/-- A refused command: L, N, `phase` and `cnt` keep their values, the code is on `resp` for this step, nothing is
saved and control goes nowhere (R76). The next step is an ordinary step, so there is no return (R78). -/
def refuseCommand (code : Resp) (s : State) : State := observed code none s

/-! ## What an edge does -/

/-- The core's own part of RESET (R87): IDLE, `cnt = 0`, L and N the free values of this draw (R16). -/
def resetCore (s : State) : State :=
  { s with
    L := Config.resetL s.draws
    N := Config.resetN s.draws
    phase := .idle
    cnt := 0
    draws := s.draws + 1 }

/-- The registers and control state after an accepted LOAD (R55). -/
def loadCore (key : KeyBus) (iv : IvBus) (s : State) : State :=
  setControl .init 0 (setRegs (loadedL iv, loadedN key) s)

/-- One counted init-clock (R57): the phase becomes RUN when `cnt + 1 = 256`. -/
def warmCore (s : State) : State :=
  setControl (if s.cnt + 1#9 = 256#9 then .run else s.phase) (s.cnt + 1#9)
    (setRegs (iclk (s.L, s.N)) s)

/-- One generation-clock (R50). -/
def generateCore (s : State) : State := setRegs (gclk (s.L, s.N)) s

/-- The warm-up step: one counted init-clock whatever the command, which is answered OK if it is NOP and E_BUSY
otherwise (R57). -/
def warmUp (c : Cmd) (s : State) : State :=
  observed (if c = .nop then .ok else .eBusy) none (warmCore s)

/-- Line 2 of the step's selection: in INIT every command is a warm-up step; otherwise the command is decoded
(R39, R53). -/
def unlessInit (c : Cmd) (obey : State → State) (s : State) : State :=
  if s.phase = .init then warmUp c s else obey s

/-- An edge with `rst = 1` (R87). -/
def presentReset (s : State) : State := observed .ok none (resetCore s)

/-- An edge with `cmd = 00` (R54). -/
def presentNop (s : State) : State := unlessInit .nop (observed .ok none) s

/-- An edge with `cmd = 01`: the key length is checked first, then the IV length (R55, R77). -/
def presentLoad (klen ivlen : LenField) (key : KeyBus) (iv : IvBus) (s : State) : State :=
  unlessInit .load
    (fun t =>
      if klen ≠ 16 then refuseCommand .eKeyLen t
      else if ivlen ≠ 12 then refuseCommand .eIvLen t
      else observed .ok none (loadCore key iv t)) s

/-- An edge with `cmd = 10`: in RUN it consumes the pre-edge `z_out` and applies a generation-clock (R58). -/
def presentNext (s : State) : State :=
  unlessInit .next
    (fun t =>
      if t.phase = .run then observed .ok (some (zOut t)) (generateCore t)
      else refuseCommand .eNotReady t) s

/-- An edge with `cmd = 11` (R59). -/
def presentRsvd (s : State) : State := unlessInit .rsvd (refuseCommand .eIllCmd) s

/-- An edge with a command whose operand fields are don't-care, presented as 0 (R38). -/
def presentCommand (c : Cmd) (s : State) : State :=
  match c with
  | .nop => presentNop s
  | .load => presentLoad 0 0 0 0 s
  | .next => presentNext s
  | .rsvd => presentRsvd s

end Sys2Proof.Machine
end

