-- ==== Sys2Proof/Machine/Clocking.lean ====
section
/-! DEFINITION. The meanings of the two micro-operations (spec/41_clocking.md R49, R50). Neither has a code of its
own: each is what its row's input vector does at an edge, so outside the phase that applies it (R52) the edge is the
ordinary one of R53 (log entry 5). -/

namespace Sys2Proof.Machine

/-- ICLK: in INIT the warm-up step; `cmd` affects `resp` only (R49, R57). -/
def execIclk (c : Cmd) (s : State) : Host.Outcome State Fault Refusal := .next (presentCommand c s)

/-- GCLK: in RUN the generation-clock an accepted NEXT applies (R50, R58). -/
def execGclk (s : State) : Host.Outcome State Fault Refusal := .next (presentNext s)

end Sys2Proof.Machine
end

