-- ==== Sys2Proof/Machine/Commands.lean ====
section
/-! DEFINITION. The meanings of the five commands: the edge at which each is presented
(spec/42_commands.md R54, R55, R58, R59; spec/70_reset_and_hazards.md R87). In INIT the edge of any command but
RESET is a warm-up step (R57). -/

namespace Sys2Proof.Machine

/-- RESET (R87). -/
def execReset (s : State) : Host.Outcome State Fault Refusal := .next (presentReset s)

/-- NOP (R54). -/
def execNop (s : State) : Host.Outcome State Fault Refusal := .next (presentNop s)

/-- LOAD (R55). -/
def execLoad (klen ivlen : LenField) (key : KeyBus) (iv : IvBus) (s : State) : Host.Outcome State Fault Refusal :=
  .next (presentLoad klen ivlen key iv s)

/-- NEXT (R58). -/
def execNext (s : State) : Host.Outcome State Fault Refusal := .next (presentNext s)

/-- RSVD (R59). -/
def execRsvd (s : State) : Host.Outcome State Fault Refusal := .next (presentRsvd s)

end Sys2Proof.Machine
end

