-- ==== Sys2Proof/Machine/Functions.lean ====
section
/-! DEFINITION. The four combinational functions as instructions of their own (spec/40_networks.md R42 to R46). The
host cannot select them and no edge is spent on them: SHIFT writes its register, and FL, FN and Z put their one bit
on the model's `wire` (log entry 4). -/

namespace Sys2Proof.Machine

/-- SHIFT: `X <- shift(X, b)` (R42). -/
def execShift (r : RegName) (b : Bool) (s : State) : Host.Outcome State Fault Refusal :=
  .next (writeReg r (shift (readReg r s) b) s)

/-- FL (R43). -/
def execFl (s : State) : Host.Outcome State Fault Refusal := .next (setWire (fL s.L) s)

/-- FN (R45). -/
def execFn (s : State) : Host.Outcome State Fault Refusal := .next (setWire (fN s.L s.N) s)

/-- Z (R46). -/
def execZ (s : State) : Host.Outcome State Fault Refusal := .next (setWire (z s.L s.N) s)

end Sys2Proof.Machine
end

