-- ==== Sys2Proof/Machine/Macros.lean ====
section
/-! DEFINITION. The macro-operations: the adapter's expansions into edges, and the bytes, bits or named errors they
hand back (spec/43_macros.md R61 to R66, spec/60_exceptions.md R76, R77). Each runs to completion as one
instruction (R86; log entry 6). -/

namespace Sys2Proof.Machine

/-- The pseudo-instruction WAIT: NOP presented 256 times (R61). -/
def waitEdges (s : State) : State := presentNop^[Config.initClocks] s

/-- The keystream bits that `n` successive NEXTs would take: `z_out` read before each edge (R63, R90). -/
def streamBits : Nat → State → List Bool
  | 0, _ => []
  | n + 1, s => zOut s :: streamBits n (presentNext s)

/-- INITIALIZE(K, V): LOAD with the lengths held, the error its `resp` names, and on any other answer NOP 256
times (R61). -/
def initialiseOp (K V : List Byte) (s : State) : State × Result :=
  let w := initialiseVector K V
  let t := presentLoad (lenField K.length) (lenField V.length) (keyBus K) (ivBus V) s
  if respAt s w = .eKeyLen then (t, .error .invalidKeyLength)
  else if respAt s w = .eIvLen then (t, .error .invalidIvLength)
  else (waitEdges t, .done)

/-- NEXT_BIT(): NotReady without a step unless `ready`; else the bit read before the NEXT (R62). -/
def nextBitOp (s : State) : State × Result :=
  if ready s then (presentNext s, .bit (zOut s)) else (s, .error .notReady)

/-- NEXT_BYTES(n, outlen): NotReady, then BufferLengthMismatch, each without a step; else `8n` times read `z_out`
and present NEXT, and pack (R63). -/
def nextBytesOp (n : Nat) (outlen : Option Nat) (s : State) : State × Result :=
  if ready s = false then (s, .error .notReady)
  else if outlen.isSome ∧ outlen ≠ some n then (s, .error .bufferLengthMismatch)
  else (presentNext^[8 * n] s, .bytes (pack (streamBits (8 * n) s)))

/-- PROCESS(K, V, B, outlen): the three checks, INITIALIZE, NEXT_BYTES(len(B)) and the bytewise xor (R64). -/
def processOp (K V B : List Byte) (outlen : Option Nat) (s : State) : State × Result :=
  if K.length ≠ Config.keyBytes then (s, .error .invalidKeyLength)
  else if V.length ≠ Config.ivBytes then (s, .error .invalidIvLength)
  else if outlen.isSome ∧ outlen ≠ some B.length then (s, .error .bufferLengthMismatch)
  else match nextBytesOp B.length none (initialiseOp K V s).1 with
    | (t, .bytes ks) => (t, .bytes (xorBytes B ks))
    | (t, r) => (t, r)

/-- Successive chunks on one running state, with neither LOAD nor RESET between them: NEXT_BYTES(len) xor the chunk
for each (R66, R70). The adapter's chunk size has no effect on PROCESS (log entry 7). -/
def chunkedOp : List (List Byte) → State → State × Result
  | [], s => (s, .bytes [])
  | B :: Bs, s =>
    match nextBytesOp B.length none s with
    | (t, .bytes ks) =>
      match chunkedOp Bs t with
      | (u, .bytes out) => (u, .bytes (xorBytes B ks ++ out))
      | (u, r) => (u, r)
    | (t, r) => (t, r)

/-- Hand a macro-operation's result to the caller (R97). -/
def returned (p : State × Result) : Host.Outcome State Fault Refusal := .next (deliver p.2 p.1)

/-- INITIALIZE (R61). -/
def execInitialise (K V : List Byte) (s : State) : Host.Outcome State Fault Refusal := returned (initialiseOp K V s)

/-- WAIT (R61). -/
def execWait (s : State) : Host.Outcome State Fault Refusal := .next (deliver .done (waitEdges s))

/-- NEXT_BIT (R62). -/
def execNextBit (s : State) : Host.Outcome State Fault Refusal := returned (nextBitOp s)

/-- NEXT_BYTES (R63). -/
def execNextBytes (n : Nat) (outlen : Option Nat) (s : State) : Host.Outcome State Fault Refusal :=
  returned (nextBytesOp n outlen s)

/-- PROCESS (R64). -/
def execProcess (K V B : List Byte) (outlen : Option Nat) (s : State) : Host.Outcome State Fault Refusal :=
  returned (processOp K V B outlen s)

end Sys2Proof.Machine
end

