-- ==== Sys2Proof/Machine/Dispatch.lean ====
section
/-! DEFINITION. One arm per instruction. -/

namespace Sys2Proof.Machine

def exec (i : Instr) (s : State) : Host.Outcome State Fault Refusal :=
  match i with
  | .reset => Sys2Proof.Machine.execReset s
  | .nop => Sys2Proof.Machine.execNop s
  | .load klen ivlen key iv => Sys2Proof.Machine.execLoad klen ivlen key iv s
  | .next => Sys2Proof.Machine.execNext s
  | .rsvd => Sys2Proof.Machine.execRsvd s
  | .iclk c => Sys2Proof.Machine.execIclk c s
  | .gclk => Sys2Proof.Machine.execGclk s
  | .initialise K V => Sys2Proof.Machine.execInitialise K V s
  | .wait => Sys2Proof.Machine.execWait s
  | .nextBit => Sys2Proof.Machine.execNextBit s
  | .nextBytes n outlen => Sys2Proof.Machine.execNextBytes n outlen s
  | .process K V B outlen => Sys2Proof.Machine.execProcess K V B outlen s
  | .shift r b => Sys2Proof.Machine.execShift r b s
  | .fl => Sys2Proof.Machine.execFl s
  | .fn => Sys2Proof.Machine.execFn s
  | .z => Sys2Proof.Machine.execZ s

end Sys2Proof.Machine
end

