-- ==== Sys2Proof/Machine/Step.lean ====
section
/-! DEFINITION. The machine's step: the host's next request is taken, an input vector is decoded in the pre-edge
phase (spec/30_encoding.md R39), and the instruction runs (spec/42_commands.md R53, spec/70_reset_and_hazards.md
R97). -/

namespace Sys2Proof.Machine

/-- The instruction a request asks for in phase `p`. -/
def requested (p : Phase) (q : Request) : Instr :=
  match q with
  | .vector w => decode p w
  | .call m => m.toInstr

/-- One request of the host: one edge, or one macro-operation run to completion. With none left, the run has
ended (R97). -/
def step (s : State) : Host.Outcome State Fault Refusal :=
  match s.inputs with
  | [] => .refused .endOfRun
  | q :: rest => exec (requested s.phase q) (withInputs rest s)

/-- `s` with the vector of the number `w` (its bits above `nbits` zero) presented for the coming edge, before
whatever else the host will ask for. DESIGN CHOICE (log entry 9): R31 says only that a listing's bits above `IW[236]`
are 0; where one of them is 1 it has no port to go to, and it is dropped here, while `decodeNumber` refuses the number
by name. -/
def State.withFetchWord (s : State) (nbits w : Nat) : State :=
  { s with inputs := .vector (BitVec.ofNat 237 (w % 2 ^ nbits)) :: s.inputs }

end Sys2Proof.Machine
end

