-- ==== Sys2Proof/Safety.lean ====
section
/-! DEFINITION. The predicates claims are stated in: the invariants of the control state (spec/10_state.md R10) and
of what the host observes (R13, R93, spec/60_exceptions.md R72), what the host sees of a state (R15, R16), and the
keystream of a run (spec/70_reset_and_hazards.md R97). -/

namespace Sys2Proof.Machine

/-- `k` steps, stopping at the first that has no next state (R97). -/
def runSteps : Nat → State → Host.Outcome State Fault Refusal
  | 0, s => .next s
  | k + 1, s =>
    match step s with
    | .next t => runSteps k t
    | .fault f => .fault f
    | .refused r => .refused r

/-- The control invariant (R10). -/
def State.Inv (s : State) : Prop :=
  (s.phase = .idle → s.cnt = 0) ∧ (s.phase = .init → s.cnt.toNat ≤ 255) ∧ (s.phase = .run → s.cnt.toNat = 256)

/-- What no observation of one edge may break: `ready` and `busy` are never both 1 (R13), `z_out` is 0 unless
`ready` (R60, R93), the core never drives the code of BufferLengthMismatch (R72), and a bit is consumed only at an
edge answered OK that leaves the core in RUN (R58). -/
def Sample.Lawful (a : Sample) : Prop :=
  (a.ready && a.busy) = false ∧ (a.zOut = true → a.ready = true) ∧ a.resp ≠ .eBufLen
    ∧ (a.taken.isSome → a.resp = .ok ∧ a.ready = true)

/-- Every observation so far is lawful. -/
def State.TraceLawful (s : State) : Prop := ∀ a ∈ s.trace, a.Lawful

/-- No edge so far was answered with a code other than OK: the premise a claim about a command sequence carries
(R73). -/
def State.NoRefusal (s : State) : Prop := ∀ a ∈ s.trace, a.resp = .ok

/-- Two states a host cannot tell apart: all but the contents of L and N in IDLE, and the count of draws, is the
same (R15, R16). -/
def State.SameToHost (s t : State) : Prop :=
  s.phase = t.phase ∧ s.cnt = t.cnt ∧ s.inputs = t.inputs ∧ s.trace = t.trace ∧ s.results = t.results
    ∧ (s.phase ≠ .idle → s.L = t.L ∧ s.N = t.N)

/-- Two outcomes a host cannot tell apart: next states it cannot tell apart, or the same stop. -/
def SameOutcome (a b : Host.Outcome State Fault Refusal) : Prop :=
  match a, b with
  | .next s, .next t => s.SameToHost t
  | .fault f, .fault g => f = g
  | .refused f, .refused g => f = g
  | _, _ => False

/-- The four items of the core's own state are the same (10_state.md: L, N, `phase`, `cnt`). -/
def State.SameCore (s t : State) : Prop := s.L = t.L ∧ s.N = t.N ∧ s.phase = t.phase ∧ s.cnt = t.cnt

/-- The vector `w` is a LOAD that the core accepts at the coming edge (R55). -/
def AcceptedLoad (s : State) (w : InputVector) : Prop :=
  iwRst w = false ∧ s.phase ≠ .init ∧ iwCmd w = .load ∧ iwKlen w = 16 ∧ iwIvlen w = 12

/-- The macro-operation raises nothing in a core that is not busy (R61 to R64). -/
def RaisesNothing (s : State) (m : MacroCall) : Prop :=
  match m with
  | .initialise K V => K.length = 16 ∧ V.length = 12
  | .wait => True
  | .nextBit => s.phase = .run
  | .nextBytes n o => s.phase = .run ∧ (o = none ∨ o = some n)
  | .process K V B o => K.length = 16 ∧ V.length = 12 ∧ (o = none ∨ o = some B.length)

/-- The keystream observed so far, oldest bit first (R97). -/
def State.keystream (s : State) : List Bool := s.trace.reverse.filterMap Sample.taken

/-- The canonical working state of a key and an IV: (L, N) after LOAD and 256 init-clocks (R17). -/
def canonical (key : KeyBus) (iv : IvBus) : Register × Register :=
  iclk^[Config.initClocks] (loadedL iv, loadedN key)

/-- Bit `k` of the keystream of a canonical state: the filter bit after `k` generation-clocks (R17, R58). -/
def keystreamBit (r : Register × Register) (k : Nat) : Bool :=
  z (gclk^[k] r).1 (gclk^[k] r).2

/-- The first `n` bytes of the keystream of a key and an IV (R17, R22). -/
def keystreamBytes (key : KeyBus) (iv : IvBus) (n : Nat) : List Byte :=
  pack ((List.range (8 * n)).map (keystreamBit (canonical key iv)))

end Sys2Proof.Machine
end

