-- ==== Sys2Proof/Certificates/Slice0/Obligations.lean ====
section
/-! DEFINITION. The statements for the provers, in the order of OBLIGATIONS.json. Where a statement says that an
instruction answers `next t`, `t` is written out, so every field not named there is unchanged: its frame. -/

open Sys2Proof Sys2Proof.Machine

/-! ## Encoding -/

/-- Every operation an edge can select in a phase has an input vector that decodes to it in that phase, with every
operand at every value (R31, R32, R39). -/
def Obligations.DecodeOfEncodeAtPins : Prop :=
  ∀ (p : Phase) (i : Instr), i.atPins p = true → ∃ w, encode i = some w ∧ decode p w = i

/-- Every input vector, in every phase, decodes to an operation that phase can select, and the encoding of that
operation keeps every bit the operation reads: `rst`; without a reset also `cmd`; and for a LOAD the whole vector
(R38, R39). -/
def Obligations.EveryVectorDecodesAtPins : Prop :=
  ∀ (p : Phase) (w : InputVector), (decode p w).atPins p = true ∧
    ∃ v, encode (decode p w) = some v ∧ iwRst v = iwRst w
      ∧ (iwRst w = false → iwCmd v = iwCmd w)
      ∧ (iwRst w = false → p ≠ .init → iwCmd w = .load → v = w)

/-- `IW = {iv, key, ivlen, klen, cmd, rst}` as one number: each field at the bit R31 gives it. -/
def Obligations.InputVectorAsNumber : Prop :=
  ∀ (rst : Bool) (c : Cmd) (klen ivlen : LenField) (key : KeyBus) (iv : IvBus),
    (packVector rst c klen ivlen key iv).toNat =
      rst.toNat + (cmdBits c).toNat * 2 ^ 1 + klen.toNat * 2 ^ 3 + ivlen.toNat * 2 ^ 8 + key.toNat * 2 ^ 13
        + iv.toNat * 2 ^ 141

/-- The worked encodings of R40 and of the spec's programs, read as numbers, decode to what they stand for; in INIT
the same words are warm-up steps (R31, R39, R40). R31 says a listing's top three bits are always 0; that a number with
one of them 1 is refused by name is the model's choice (log entry 9). -/
def Obligations.WorkedVectorsDecode : Prop :=
  decodeNumber .idle 0x1 = .ok .reset ∧ decodeNumber .idle 0x0 = .ok .nop ∧ decodeNumber .run 0x4 = .ok .next
    ∧ decodeNumber .idle 0x6 = .ok .rsvd ∧ decodeNumber .idle 0xC82 = .ok (.load 16 12 0 0)
    ∧ decodeNumber .run 0x161412100E0C0A08060402001E1C1A18161412100E0C0A0806040200C82
        = .ok (.load 16 12 0x0F0E0D0C0B0A09080706050403020100 0x0B0A09080706050403020100)
    ∧ decodeNumber .init 0x4 = .ok (.iclk .next) ∧ decodeNumber .init 0xC82 = .ok (.iclk .load)
    ∧ decodeNumber .init 0x3 = .ok .reset ∧ decodeNumber .idle (2 ^ 237) = .error .tooWide

/-- The statements of R40 assemble to their worked encodings, a repeat count to that many vectors, a field left out to
its default; every legal LOAD, its lengths written or left out (16 and 12 then), to the vector that decodes to those
lengths and the buses of its bytes; and a pseudo-instruction to its call, one request by the model's choice (log entry
2). An illegal LOAD (a wrong number of bytes, a length above 31) is refused by name: R40 calls it illegal, and what it
assembles to is the model's choice (log entry 10). -/
def Obligations.ProgramTextAssembles : Prop :=
  assemble .reset = .ok [.vector 0x1] ∧ assemble .rsvd = .ok [.vector 0x6]
    ∧ (∀ n, assemble (.nop (some n)) = .ok (List.replicate n (.vector 0x0)))
    ∧ (∀ n, assemble (.next (some n)) = .ok (List.replicate n (.vector 0x4)))
    ∧ assemble (.nop none) = .ok [.vector 0x0] ∧ assemble (.next none) = .ok [.vector 0x4]
    ∧ assemble (.load (List.replicate 16 0) (List.replicate 12 0) none none) = .ok [.vector 0xC82]
    ∧ assemble (.load (List.replicate 16 0) (List.replicate 12 0) (some 15) (some 11)) = .ok [.vector 0xB7A]
    ∧ (∀ (K V : List Byte) (kl vl : Option Nat), K.length = 16 → V.length = 12 → kl.getD 16 ≤ 31 → vl.getD 12 ≤ 31 →
      ∃ w, assemble (.load K V kl vl) = .ok [.vector w]
        ∧ decode .idle w =
          .load (BitVec.ofNat 5 (kl.getD 16)) (BitVec.ofNat 5 (vl.getD 12)) (keyBus K) (ivBus V))
    ∧ (∀ m : MacroCall, assemble (.pseudo m) = .ok [.call m])
    ∧ (∀ (K V : List Byte) (kl vl : Option Nat),
      K.length ≠ 16 ∨ V.length ≠ 12 ∨ (∃ k, kl = some k ∧ 31 < k) ∨ (∃ k, vl = some k ∧ 31 < k) →
      assemble (.load K V kl vl) = .error .illegalLoad)

/-- The codes of the commands, the responses and the phases, and the response that belongs to each named error
(R32, R34, R35, R74); with them `busy = phase[0]` and `ready = phase[1]` (R35). -/
def Obligations.CodesOfTheInterface : Prop :=
  ([Cmd.nop, .load, .next, .rsvd].map cmdBits = [0b00, 0b01, 0b10, 0b11])
    ∧ ([Resp.ok, .eKeyLen, .eIvLen, .eBufLen, .eNotReady, .eBusy, .eIllCmd].map respBits =
        [0b000, 0b001, 0b010, 0b011, 0b100, 0b101, 0b110])
    ∧ ([Phase.idle, .init, .run].map phaseBits = [0b00, 0b01, 0b10])
    ∧ (∀ s : State, busy s = (phaseBits s.phase).getLsbD 0 ∧ ready s = (phaseBits s.phase).getLsbD 1)
    ∧ ([MacroError.invalidKeyLength, .invalidIvLength, .bufferLengthMismatch, .notReady].map macroErrorResp =
        [.eKeyLen, .eIvLen, .eBufLen, .eNotReady])

/-! ## The step -/

/-- The step runs what the host asks for: a vector decoded in the pre-edge phase, or a macro-operation's call, with
that request taken from the front of the host's sequence; and where the sequence is used up the run has ended
(R53, R97). That a macro-operation's call is one request and one step beside the vectors, and that a used-up sequence is
answered by the refusal `endOfRun`, are the model's choices (log entries 2 and 6). -/
def Obligations.StepRunsTheRequest : Prop :=
  (∀ (s : State) (w : InputVector) (rest : List Request), s.inputs = .vector w :: rest →
      step s = exec (decode s.phase w) { s with inputs := rest })
    ∧ (∀ (s : State) (m : MacroCall) (rest : List Request), s.inputs = .call m :: rest →
      step s = exec m.toInstr { s with inputs := rest })
    ∧ (∀ s : State, s.inputs = [] → step s = .refused .endOfRun)

/-- Every state accepts every request: the step is total, so the core never halts and has no stuck state (R97). That a
macro-operation's call is one request and one step is the model's choice (log entries 2 and 6). -/
def Obligations.StepIsTotal : Prop :=
  ∀ s : State, s.inputs ≠ [] → ∃ t, step s = .next t ∧ t.inputs = s.inputs.tail

/-- Reading a vector as if the core were in IDLE and running it gives what the vector decoded in the core's own
phase gives: in INIT every command is a warm-up step whatever it was read as (R39, R53). -/
def Obligations.DecodingPhaseIsImmaterial : Prop :=
  ∀ (s : State) (w : InputVector), exec (decode .idle w) s = exec (decode s.phase w) s

/-! ## The shift and the networks -/

/-- `shift` bit by bit and as an integer, its corner cases and worked example (R42). -/
def Obligations.ShiftMovesEveryBit : Prop :=
  (∀ (X : Register) (b : Bool), (∀ i < 127, (shift X b).getLsbD i = X.getLsbD (i + 1))
      ∧ (shift X b).getLsbD 127 = b ∧ (shift X b).toNat = X.toNat / 2 + b.toNat * 2 ^ 127)
    ∧ (∀ (X : Register) (bs : List Bool), bs.length = 128 →
      ∀ i < 128, (bs.foldl shift X).getLsbD i = bs.getD i false)
    ∧ shift 0 false = 0 ∧ shift (BitVec.allOnes 128) true = BitVec.allOnes 128
    ∧ shift 0xFFFFFFFF000000000000000000000000 true = 0xFFFFFFFF800000000000000000000000

/-- SHIFT as an instruction: in every state it completes, writes exactly its register, and leaves everything else
(R42). That SHIFT runs as an instruction of its own is the model's choice (log entry 4). -/
def Obligations.ShiftInstruction : Prop :=
  ∀ (s : State) (b : Bool),
    exec (.shift .L b) s = .next { s with L := shift s.L b }
      ∧ exec (.shift .N b) s = .next { s with N := shift s.N b }

/-- Between two loads `shift` is the sole mutator: an edge that is neither a RESET nor an accepted LOAD leaves both
registers, or shifts both by one position (R11, R42, R51). -/
def Obligations.RegistersOnlyShiftBetweenLoads : Prop :=
  ∀ (s t : State) (w : InputVector), exec (decode s.phase w) s = .next t → iwRst w = false → ¬ AcceptedLoad s w →
    (t.L = s.L ∧ t.N = s.N) ∨ ∃ a b, t.L = shift s.L a ∧ t.N = shift s.N b

/-- `fL` reads its six taps of L, is linear, has the rule's corner cases and worked example; FL as an instruction
completes in every state with that bit and writes nothing of the core (R43). That FL runs as an instruction and puts its
bit on `wire` is the model's choice (log entry 4). -/
def Obligations.LinearFeedback : Prop :=
  (∀ s : State, exec .fl s = .next { s with wire := (s.L.getLsbD 0 ^^ s.L.getLsbD 7 ^^ s.L.getLsbD 38
      ^^ s.L.getLsbD 70 ^^ s.L.getLsbD 81 ^^ s.L.getLsbD 96) })
    ∧ (∀ s : State, exec .fl s = .next { s with wire := fL s.L })
    ∧ fL 0 = false ∧ fL (BitVec.allOnes 128) = false
    ∧ (∀ i < 128, fL (BitVec.twoPow 128 i) = decide (i ∈ [0, 7, 38, 70, 81, 96]))
    ∧ (∀ A B : Register, fL (A ^^^ B) = (fL A ^^ fL B))
    ∧ fL 0xFFFFFFFF000000000000000000000000 = true

/-- The taps of `fL` are `128 - exponent` for the exponents of the characteristic polynomial, and its constant term is
the bit a generation-clock shifts in: the new `L[127]` and the six taps sum to 0 (R44). -/
def Obligations.FeedbackPolynomial : Prop :=
  (∀ L : Register, fL L = ([128, 121, 90, 58, 47, 32].map fun e => L.getLsbD (128 - e)).foldl Bool.xor false)
    ∧ ∀ L N : Register, ([128, 121, 90, 58, 47, 32].map fun e => L.getLsbD (128 - e)).foldl Bool.xor
        ((gclk (L, N)).1.getLsbD 127) = false

/-- `fN` is the rule's `base xor andterms`, reads no bit of L but `L[0]`, and has the rule's corner cases and worked
examples; FN as an instruction completes in every state with that bit and writes nothing of the core (R45). That FN runs
as an instruction and puts its bit on `wire` is the model's choice (log entry 4). -/
def Obligations.NonlinearFeedback : Prop :=
  (∀ s : State, exec .fn s = .next { s with wire := fN s.L s.N })
    ∧ (∀ L N : Register, fN L N =
        ((N.getLsbD 0 ^^ N.getLsbD 26 ^^ N.getLsbD 56 ^^ N.getLsbD 91 ^^ N.getLsbD 96 ^^ L.getLsbD 0)
          ^^ ((N.getLsbD 3 && N.getLsbD 67) ^^ (N.getLsbD 11 && N.getLsbD 13) ^^ (N.getLsbD 17 && N.getLsbD 18)
            ^^ (N.getLsbD 27 && N.getLsbD 59) ^^ (N.getLsbD 40 && N.getLsbD 48) ^^ (N.getLsbD 61 && N.getLsbD 65)
            ^^ (N.getLsbD 68 && N.getLsbD 84))))
    ∧ (∀ L L' N : Register, L.getLsbD 0 = L'.getLsbD 0 → fN L N = fN L' N)
    ∧ fN 0 0 = false ∧ fN (BitVec.allOnes 128) (BitVec.allOnes 128) = true
    ∧ (∀ L : Register, fN L 0 = L.getLsbD 0)
    ∧ (∀ i < 128, fN 0 (BitVec.twoPow 128 i) = decide (i ∈ [0, 26, 56, 91, 96]))
    ∧ (∀ ab ∈ [(3, 67), (11, 13), (17, 18), (27, 59), (40, 48), (61, 65), (68, 84)],
        fN 0 (BitVec.twoPow 128 ab.1 ||| BitVec.twoPow 128 ab.2) = true)

/-- `z` is the rule's formula with the rule's corner cases and worked examples; Z as an instruction completes in
every state with that bit and writes nothing of the core (R46). That Z runs as an instruction and puts its bit on `wire`
is the model's choice (log entry 4). -/
def Obligations.OutputFilter : Prop :=
  (∀ s : State, exec .z s = .next { s with wire := z s.L s.N })
    ∧ (∀ L N : Register, z L N =
        (N.getLsbD 2 ^^ N.getLsbD 15 ^^ N.getLsbD 36 ^^ N.getLsbD 45 ^^ N.getLsbD 64 ^^ N.getLsbD 73
          ^^ N.getLsbD 89 ^^ L.getLsbD 93 ^^ (N.getLsbD 12 && N.getLsbD 95 && L.getLsbD 95)
          ^^ (N.getLsbD 12 && L.getLsbD 8) ^^ (L.getLsbD 13 && L.getLsbD 20) ^^ (N.getLsbD 95 && L.getLsbD 42)
          ^^ (L.getLsbD 60 && L.getLsbD 79)))
    ∧ z 0 0 = false ∧ z (BitVec.allOnes 128) (BitVec.allOnes 128) = true
    ∧ (∀ N : Register, z 0 N = (N.getLsbD 2 ^^ N.getLsbD 15 ^^ N.getLsbD 36 ^^ N.getLsbD 45 ^^ N.getLsbD 64
        ^^ N.getLsbD 73 ^^ N.getLsbD 89))
    ∧ (∀ L : Register, z L 0 = (L.getLsbD 93 ^^ (L.getLsbD 13 && L.getLsbD 20) ^^ (L.getLsbD 60 && L.getLsbD 79)))
    ∧ z 0xFFFFFFFF000000000000000000000000 0 = false ∧ z 0xFFFFFFFFE00000000000000000000000 0 = true

/-! ## The two clock modes -/

/-- ICLK in INIT: in every such state, whatever `cmd` it carries, it completes with both registers shifted by the
pre-edge feedback bits mixed with the same pre-edge `z`, `cnt` counted and the phase RUN exactly when `cnt + 1 =
256`; `cmd` decides only `resp` (R49, R51, R57). -/
def Obligations.InitClockStep : Prop :=
  ∀ (s : State) (c : Cmd), s.phase = .init →
    exec (.iclk c) s = .next (observed (if c = .nop then .ok else .eBusy) none
      { s with
        L := shift s.L (fL s.L ^^ z s.L s.N)
        N := shift s.N (fN s.L s.N ^^ z s.L s.N)
        cnt := s.cnt + 1
        phase := if s.cnt + 1 = 256 then .run else .init })

/-- In INIT an edge with any command (LOAD and its operands too) is that same ICLK step: the command is not obeyed
(R57). The clause about GCLK, outside the phase that applies it, is the model's reading of its row (log entry 5). -/
def Obligations.WarmUpWhateverTheCommand : Prop :=
  ∀ s : State, s.phase = .init →
    exec .nop s = exec (.iclk .nop) s ∧ exec .next s = exec (.iclk .next) s ∧ exec .gclk s = exec (.iclk .next) s
      ∧ exec .rsvd s = exec (.iclk .rsvd) s
      ∧ ∀ klen ivlen key iv, exec (.load klen ivlen key iv) s = exec (.iclk .load) s

/-- GCLK in RUN: it completes with both registers shifted by the unmixed pre-edge feedback bits, nothing of the
control state written, and the pre-edge filter bit consumed (R50). -/
def Obligations.GenerationClockStep : Prop :=
  ∀ s : State, s.phase = .run →
    exec .gclk s = .next (observed .ok (some (z s.L s.N))
      { s with L := shift s.L (fL s.L), N := shift s.N (fN s.L s.N) })

/-- With `y` forced to 0 the two modes are one, the mode differs only in mixing `z`, and each is applied in its own
phase only: an edge that is no RESET applies ICLK in INIT, GCLK only in RUN and neither in IDLE (R52). -/
def Obligations.ClockModesAndPhases : Prop :=
  (∀ r : Register × Register, mixedClock false r = gclk r)
    ∧ (∀ r : Register × Register, iclk r = mixedClock (z r.1 r.2) r)
    ∧ (∀ (s t : State) (w : InputVector), exec (decode s.phase w) s = .next t → iwRst w = false → ¬ AcceptedLoad s w →
      (s.phase = .init → (t.L, t.N) = iclk (s.L, s.N))
        ∧ (s.phase = .run → iwCmd w = .next → (t.L, t.N) = gclk (s.L, s.N))
        ∧ (s.phase = .run → iwCmd w ≠ .next → t.L = s.L ∧ t.N = s.N)
        ∧ (s.phase = .idle → t.L = s.L ∧ t.N = s.N))

/-! ## The commands -/

/-- RESET completes in every state whatever it holds, even one no run reaches: IDLE, `cnt = 0`, L and N the free
values of the next draw, `resp = OK`, all outputs 0 afterwards; repeating it gives the same but for the draw; and a
NEXT that follows is answered E_NOTREADY (R87). The free values of log entry 1 stand for every value. -/
def Obligations.ResetFromAnyState : Prop :=
  ∀ s : State, ∃ t, exec .reset s = .next t
    ∧ t = { s with
        L := Config.resetL s.draws, N := Config.resetN s.draws, phase := .idle, cnt := 0, draws := s.draws + 1
        trace := { resp := .ok, taken := none, ready := false, busy := false, zOut := false } :: s.trace }
    ∧ ready t = false ∧ busy t = false ∧ zOut t = false
    ∧ exec .next t = .next { t with
        trace := { resp := .eNotReady, taken := none, ready := false, busy := false, zOut := false } :: t.trace }

/-- The state after reset: IDLE, `cnt = 0`, outputs 0, and L and N what a RESET draws: a RESET from any state leaves
the four items of the core as the reset state has them when it makes the same draw (R16). That the reset state makes
draw 0 is the model's choice (log entry 1). -/
def Obligations.ResetState : Prop :=
  State.reset.phase = .idle ∧ State.reset.cnt = 0 ∧ ready State.reset = false ∧ busy State.reset = false
    ∧ zOut State.reset = false
    ∧ ∀ s t : State, s.draws = 0 → exec .reset s = .next t → t.SameCore State.reset ∧ t.draws = State.reset.draws

/-- NOP in IDLE and RUN completes with no state change and `resp = OK`; any number of NOPs leaves the core and
`z_out` as they were; in INIT it is a warm-up step answered OK (R54). -/
def Obligations.NopHoldsTheState : Prop :=
  (∀ s : State, s.phase ≠ .init → exec .nop s = .next (observed .ok none s))
    ∧ (∀ (s : State) (n : Nat), s.phase ≠ .init → ∃ t,
        runSteps n { s with inputs := List.replicate n (.vector (commandVector .nop)) } = .next t
          ∧ t.SameCore s ∧ zOut t = zOut s)
    ∧ (∀ s : State, s.phase = .init → exec .nop s = .next (warmUp .nop s))

/-- LOAD with the right lengths in IDLE and RUN completes: N is the key, L the IV with 32 ones above it, INIT,
`cnt = 0`, `resp = OK`, and afterwards `busy = 1`, `ready = 0`; nothing else changes (R55). -/
def Obligations.LoadAccepted : Prop :=
  ∀ (s : State) (key : KeyBus) (iv : IvBus), s.phase ≠ .init →
    exec (.load 16 12 key iv) s = .next { s with
      N := key
      L := BitVec.ofNat 128 (iv.toNat ||| 0xFFFFFFFF <<< 96)
      phase := .init
      cnt := 0
      trace := { resp := .ok, taken := none, ready := false, busy := true, zOut := false } :: s.trace }

/-- A LOAD of the bytes K and V puts bit `i mod 8` of `K[i div 8]` into N[i], bit `i mod 8` of `V[i div 8]` into
L[i] for `i` below 96, and ones into L[96..127] (R19, R20, R21, R55). -/
def Obligations.LoadPlacesEveryBit : Prop :=
  ∀ (s : State) (K V : List Byte), K.length = 16 → V.length = 12 → s.phase ≠ .init →
    ∃ t, exec (.load 16 12 (keyBus K) (ivBus V)) s = .next t
      ∧ (∀ i < 128, t.N.getLsbD i = (K.getD (i / 8) 0).getLsbD (i % 8))
      ∧ (∀ i < 96, t.L.getLsbD i = (V.getD (i / 8) 0).getLsbD (i % 8))
      ∧ (∀ i < 128, 96 ≤ i → t.L.getLsbD i = true)

/-- LOAD with a wrong length in IDLE and RUN is refused, the key length reported first, and changes nothing but the
observation of its code (R55, R72). -/
def Obligations.LoadRefused : Prop :=
  ∀ (s : State) (klen ivlen : LenField) (key : KeyBus) (iv : IvBus), s.phase ≠ .init →
    (klen ≠ 16 → exec (.load klen ivlen key iv) s = .next (observed .eKeyLen none s))
      ∧ (ivlen ≠ 12 → exec (.load 16 ivlen key iv) s = .next (observed .eIvLen none s))

/-- NEXT in RUN completes: the bit consumed is the pre-edge `z_out`, the filter bit of the pre-edge registers, and
one generation-clock is applied; `phase` and `cnt` do not change (R58). -/
def Obligations.NextConsumesOneBit : Prop :=
  ∀ s : State, s.phase = .run →
    zOut s = z s.L s.N
      ∧ exec .next s = .next (observed .ok (some (zOut s))
        { s with L := shift s.L (fL s.L), N := shift s.N (fN s.L s.N) })

/-- NEXT in IDLE is refused with E_NOTREADY and changes nothing else (R58, R73). -/
def Obligations.NextRefusedInIdle : Prop :=
  ∀ s : State, s.phase = .idle → exec .next s = .next (observed .eNotReady none s)

/-- RSVD completes with its own effect: in IDLE and RUN no state change and `resp = E_ILLCMD = 110`, a refusal; in INIT the same code is answered
E_BUSY and the warm-up goes on (R59). -/
def Obligations.RsvdRefused : Prop :=
  (∀ s : State, s.phase ≠ .init → exec .rsvd s = .next (observed .eIllCmd none s)) ∧ respBits .eIllCmd = 0b110
    ∧ (∀ s t : State, exec .rsvd s = .next t → ¬ t.NoRefusal)
    ∧ (∀ s : State, s.phase = .init → exec .rsvd s = .next (observed .eBusy none (warmCore s)))

/-- ICLK and GCLK outside the phase that applies them are the ordinary edge of their row's vector: no clock is
applied in IDLE, and ICLK's vector in RUN applies one only if it is a NEXT. This is the model's reading (log entry
5). -/
def Obligations.ClockRowsOutsideTheirPhase : Prop :=
  (∀ s : State, s.phase ≠ .init → exec (.iclk .nop) s = exec .nop s ∧ exec (.iclk .next) s = exec .next s
      ∧ exec (.iclk .rsvd) s = exec .rsvd s ∧ exec (.iclk .load) s = .next (observed .eKeyLen none s))
    ∧ (∀ s : State, exec .gclk s = exec .next s)

/-! ## Outputs, responses, refusals -/

/-- `ready = 1` iff RUN, `busy = 1` iff INIT, both 0 in IDLE, never both 1; and the response of an edge is a function
of the pre-edge state and the vector presented (R13). -/
def Obligations.StatusOutputsOfPhase : Prop :=
  (∀ s : State, (ready s = true ↔ s.phase = .run) ∧ (busy s = true ↔ s.phase = .init)
      ∧ (s.phase = .idle → ready s = false ∧ busy s = false) ∧ ¬ (ready s = true ∧ busy s = true))
    ∧ (∀ (s s' t t' : State) (w : InputVector) (a a' : Sample), s.SameCore s' →
        exec (decode s.phase w) s = .next t → exec (decode s'.phase w) s' = .next t' →
        t.trace = a :: s.trace → t'.trace = a' :: s'.trace → a.resp = a'.resp)

/-- What a host observes of every edge: the response on the port while the vector is presented, the keystream bit
taken by a NEXT in RUN and by nothing else, and the three Moore outputs of the state after it, with `z_out` 0
outside RUN (R60, R97). -/
def Obligations.ObservationOfAnEdge : Prop :=
  ∀ (s : State) (w : InputVector), ∃ t, exec (decode s.phase w) s = .next t
    ∧ t.trace = {
        resp := respAt s w
        taken := if iwRst w = false ∧ s.phase = .run ∧ iwCmd w = .next then some (z s.L s.N) else none
        ready := decide (t.phase = .run)
        busy := decide (t.phase = .init)
        zOut := if t.phase = .run then z t.L t.N else false } :: s.trace

/-- The priority of R77: at the pins RESET, then busy, then the illegal code, then the key length, then the IV
length, then not ready; for the macro-operations not ready first, then key length, IV length, buffer length. The clauses about NEXT_BIT,
NEXT_BYTES and PROCESS hold in INIT too, outside the precondition `busy = 0` of a macro-operation: there they are the
model's choice (log entry 6). -/
def Obligations.PriorityOfConditions : Prop :=
  (∀ (s : State) (w : InputVector), ∃ t a, exec (decode s.phase w) s = .next t ∧ t.trace = a :: s.trace
      ∧ a.resp =
        if iwRst w = true then .ok
        else if s.phase = .init ∧ iwCmd w ≠ .nop then .eBusy
        else if s.phase = .init then .ok
        else if iwCmd w = .rsvd then .eIllCmd
        else if iwCmd w = .load ∧ iwKlen w ≠ 16 then .eKeyLen
        else if iwCmd w = .load ∧ iwIvlen w ≠ 12 then .eIvLen
        else if iwCmd w = .next ∧ s.phase = .idle then .eNotReady
        else .ok)
    ∧ (∀ s : State, s.phase ≠ .run → exec .nextBit s = .next { s with results := .error .notReady :: s.results }
        ∧ ∀ n o, exec (.nextBytes n o) s = .next { s with results := .error .notReady :: s.results })
    ∧ (∀ (s : State) (n k : Nat), s.phase = .run → k ≠ n →
        exec (.nextBytes n (some k)) s = .next { s with results := .error .bufferLengthMismatch :: s.results })
    ∧ (∀ (s : State) (K V B : List Byte) (o : Option Nat), K.length ≠ 16 →
        exec (.process K V B o) s = .next { s with results := .error .invalidKeyLength :: s.results })
    ∧ (∀ (s : State) (K V B : List Byte) (o : Option Nat), K.length = 16 → V.length ≠ 12 →
        exec (.process K V B o) s = .next { s with results := .error .invalidIvLength :: s.results })
    ∧ (∀ (s : State) (K V B : List Byte) (k : Nat), K.length = 16 → V.length = 12 → k ≠ B.length →
        exec (.process K V B (some k)) s = .next { s with results := .error .bufferLengthMismatch :: s.results })
    ∧ (∀ (s : State) (K V : List Byte), s.phase ≠ .init → K.length ≠ 16 →
        exec (.initialise K V) s =
          .next { observed .eKeyLen none s with results := .error .invalidKeyLength :: s.results })
    ∧ (∀ (s : State) (K V : List Byte), s.phase ≠ .init → K.length = 16 → V.length ≠ 12 →
        exec (.initialise K V) s =
          .next { observed .eIvLen none s with results := .error .invalidIvLength :: s.results })

/-- Outside the warm-up a vector answered with a code other than OK changes nothing but the observation of that code,
and a macro-operation that reports an error leaves the core as it found it (R76, R94). -/
def Obligations.RefusalChangesNothing : Prop :=
  (∀ (s : State) (w : InputVector), s.phase ≠ .init → respAt s w ≠ .ok →
      exec (decode s.phase w) s = .next (observed (respAt s w) none s))
    ∧ (∀ (s t : State) (m : MacroCall) (e : MacroError), s.phase ≠ .init → exec m.toInstr s = .next t →
        t.results = .error e :: s.results → t.SameCore s)

/-- Don't-care fields: two vectors with `rst = 1` do the same; without it, two vectors with the same `cmd` do the
same unless that is a LOAD outside INIT; in INIT two vectors with `rst = 0` leave states that differ in nothing but the
response of the one observation each adds; and in the canonical vector of a command the don't-care fields are 0
(R38). -/
def Obligations.DontCareFields : Prop :=
  (∀ (s : State) (v w : InputVector),
    (iwRst v = true → iwRst w = true → exec (decode s.phase v) s = exec (decode s.phase w) s)
      ∧ (iwRst v = false → iwRst w = false → iwCmd v = iwCmd w → (s.phase = .init ∨ iwCmd v ≠ .load) →
        exec (decode s.phase v) s = exec (decode s.phase w) s)
      ∧ (iwRst v = false → iwRst w = false → s.phase = .init → ∃ t u, exec (decode s.phase v) s = .next t
        ∧ exec (decode s.phase w) s = .next u ∧ t.SameCore u ∧ t = { u with trace := t.trace }
        ∧ ∃ a b, t.trace = a :: s.trace ∧ u.trace = b :: s.trace ∧ a = { b with resp := a.resp }))
    ∧ (∀ c : Cmd, iwRst (commandVector c) = false ∧ iwCmd (commandVector c) = c ∧ iwKlen (commandVector c) = 0
      ∧ iwIvlen (commandVector c) = 0 ∧ iwKey (commandVector c) = 0 ∧ iwIv (commandVector c) = 0)
    ∧ resetVector = 0x1

/-! ## Control state and invariants -/

/-- All transitions of `phase` and `cnt` at an edge, and no others: RESET, from any state at all, to IDLE; an accepted
LOAD to INIT with `cnt = 0`; a warm-up step counts and, from 255, ends in RUN with 256; everything else keeps both
(R56). Where a row names a count, the state is one the control invariant allows (R10). -/
def Obligations.PhaseTransitions : Prop :=
  ∀ (s t : State) (w : InputVector), exec (decode s.phase w) s = .next t →
    (iwRst w = true → t.phase = .idle ∧ t.cnt = 0)
      ∧ (AcceptedLoad s w → t.phase = .init ∧ t.cnt = 0)
      ∧ (iwRst w = false → s.phase = .init → s.cnt.toNat ≤ 254 → t.phase = .init ∧ t.cnt.toNat = s.cnt.toNat + 1)
      ∧ (iwRst w = false → s.phase = .init → s.cnt.toNat = 255 → t.phase = .run ∧ t.cnt.toNat = 256)
      ∧ (iwRst w = false → s.phase ≠ .init → ¬ AcceptedLoad s w → t.phase = s.phase ∧ t.cnt = s.cnt)
      ∧ (s.Inv → iwRst w = false → s.phase = .idle → ¬ AcceptedLoad s w → t.phase = .idle ∧ t.cnt = 0)
      ∧ (s.Inv → iwRst w = false → s.phase = .run → ¬ AcceptedLoad s w → t.phase = .run ∧ t.cnt.toNat = 256)

/-- The control invariant is true after every RESET, from any state at all, and every step keeps it (R10). -/
def Obligations.ControlInvariantKept : Prop :=
  (∀ s t : State, exec .reset s = .next t → t.Inv) ∧ (∀ s t : State, s.Inv → step s = .next t → t.Inv)

/-- The reset state meets the control invariant and has observed nothing unlawful (R10, R16). -/
def Obligations.ResetMeetsInvariants : Prop := State.reset.Inv ∧ State.reset.TraceLawful

/-- Every step keeps what the host observes lawful: `ready` and `busy` never both 1, `z_out` 0 unless `ready`, the
code of BufferLengthMismatch never on the port, a bit consumed only at an edge answered OK that leaves RUN (R13, R60,
R72, R93). -/
def Obligations.ObservationsStayLawful : Prop :=
  ∀ s t : State, s.TraceLawful → step s = .next t → t.TraceLawful

/-- No output and no later state depends on what a RESET left in L and N: from two states a host cannot tell apart,
a step gives two it cannot tell apart (R15, R16). -/
def Obligations.ResetContentsUnobservable : Prop :=
  ∀ s t : State, s.SameToHost t → SameOutcome (step s) (step t)

/-! ## Warm-up and keystream -/

/-- After an accepted LOAD, 256 edges with any vectors but RESETs end in RUN with (L, N) the canonical state of that
key and IV alone; from then on, with any vectors but RESETs and accepted LOADs, the phase stays RUN and `z_out` is
the bit of that state whose number is the number of NEXTs presented (R17). -/
def Obligations.CanonicalStateAndKeystream : Prop :=
  ∀ (s : State) (key : KeyBus) (iv : IvBus) (ws us : List InputVector), s.phase ≠ .init → ws.length = 256 →
    (∀ w ∈ ws, iwRst w = false) →
    (∀ u ∈ us, iwRst u = false ∧ ¬ (iwCmd u = .load ∧ iwKlen u = 16 ∧ iwIvlen u = 12)) →
    ∃ t u, runSteps 257 { s with inputs := .vector (loadVector 16 12 key iv) :: ws.map .vector } = .next t
      ∧ t.phase = .run ∧ (t.L, t.N) = canonical key iv
      ∧ runSteps us.length { t with inputs := us.map .vector } = .next u
      ∧ u.phase = .run ∧ zOut u = keystreamBit (canonical key iv) (us.countP fun w => iwCmd w = .next)

/-- The warm-up is exactly 256 edges: with no RESET, after fewer than 256 edges that follow an accepted LOAD the core is
still busy and shows no bit, and after the 256th it is in RUN with `cnt = 256`, ready and shows the filter bit, whatever
was presented; after each number of edges that many init-clocks have been applied (R57, R86, R92). -/
def Obligations.WarmUpIsExactly256 : Prop :=
  ∀ (s : State) (key : KeyBus) (iv : IvBus) (ws : List InputVector), s.phase ≠ .init → ws.length ≤ 256 →
    (∀ w ∈ ws, iwRst w = false) →
    ∃ t, runSteps (ws.length + 1) { s with inputs := .vector (loadVector 16 12 key iv) :: ws.map .vector } = .next t
      ∧ (t.L, t.N) = iclk^[ws.length] (loadedL iv, loadedN key) ∧ t.cnt.toNat = ws.length
      ∧ (ws.length ≤ 255 → t.phase = .init ∧ busy t = true ∧ ready t = false ∧ zOut t = false)
      ∧ (ws.length = 256 → t.phase = .run ∧ busy t = false ∧ ready t = true ∧ zOut t = z t.L t.N)

/-! ## Macro-operations -/

/-- INITIALIZE with the right lengths completes from IDLE and RUN: the canonical state of the key and IV, RUN,
`cnt = 256`, no result but completion, 257 edges observed, each answered OK (R61, R96). The result `done` is the model's (log
entry 6). -/
def Obligations.InitialiseCompletes : Prop :=
  ∀ (s : State) (K V : List Byte), s.phase ≠ .init → K.length = 16 → V.length = 12 →
    ∃ tr, exec (.initialise K V) s = .next { s with
        L := (canonical (keyBus K) (ivBus V)).1, N := (canonical (keyBus K) (ivBus V)).2
        phase := .run, cnt := 256, trace := tr ++ s.trace, results := .done :: s.results }
      ∧ tr.length = 257 ∧ ∀ a ∈ tr, a.resp = .ok

/-- WAIT completes: in IDLE and RUN it holds the core for 256 edges; from INIT within its range it completes the
warm-up and then holds (R54, R57, R61); its call in INIT, and the result `done`, are the model's choice (log entry 6). -/
def Obligations.WaitCompletes : Prop :=
  (∀ s : State, s.phase ≠ .init → exec .wait s = .next { s with
      trace := List.replicate Config.initClocks
        { resp := .ok, taken := none, ready := ready s, busy := busy s, zOut := zOut s } ++ s.trace
      results := .done :: s.results })
    ∧ (∀ s : State, s.phase = .init → s.cnt.toNat ≤ 255 →
      ∃ tr, exec .wait s = .next { s with
          L := (iclk^[Config.initClocks - s.cnt.toNat] (s.L, s.N)).1
          N := (iclk^[Config.initClocks - s.cnt.toNat] (s.L, s.N)).2
          phase := .run, cnt := 256, trace := tr ++ s.trace, results := .done :: s.results }
        ∧ tr.length = 256 ∧ ∀ a ∈ tr, a.resp = .ok)

/-- NEXT_BIT in RUN completes: it returns the filter bit computed before the state advances, and advances it by one
generation-clock (R62). -/
def Obligations.NextBitCompletes : Prop :=
  ∀ s : State, s.phase = .run →
    exec .nextBit s = .next { observed .ok (some (z s.L s.N))
        { s with L := shift s.L (fL s.L), N := shift s.N (fN s.L s.N) } with
      results := .bit (z s.L s.N) :: s.results }

/-- NEXT_BYTES(n) in RUN, with no `outlen` or the right one, completes: the next `8n` keystream bits packed, `8n`
generation-clocks, `8n` edges each answered OK that took those bits (R63, R96, R97). -/
def Obligations.NextBytesCompletes : Prop :=
  ∀ (s : State) (n : Nat) (o : Option Nat), s.phase = .run → o = none ∨ o = some n →
    ∃ tr, exec (.nextBytes n o) s = .next { s with
        L := (gclk^[8 * n] (s.L, s.N)).1, N := (gclk^[8 * n] (s.L, s.N)).2, trace := tr ++ s.trace
        results := .bytes (pack ((List.range (8 * n)).map (keystreamBit (s.L, s.N)))) :: s.results }
      ∧ tr.length = 8 * n ∧ (∀ a ∈ tr, a.resp = .ok)
      ∧ tr.reverse.filterMap Sample.taken = (List.range (8 * n)).map (keystreamBit (s.L, s.N))

/-- PROCESS with the right lengths completes from IDLE and RUN: the message xor the keystream of the key and IV from
its first byte; the core is left in RUN, advanced by 8 generation-clocks a byte, after 257 + 8m edges each answered
OK (R64, R96). -/
def Obligations.ProcessCompletes : Prop :=
  ∀ (s : State) (K V B : List Byte) (o : Option Nat), s.phase ≠ .init → K.length = 16 → V.length = 12 →
    o = none ∨ o = some B.length →
    ∃ tr, exec (.process K V B o) s = .next { s with
        L := (gclk^[8 * B.length] (canonical (keyBus K) (ivBus V))).1
        N := (gclk^[8 * B.length] (canonical (keyBus K) (ivBus V))).2
        phase := .run, cnt := 256, trace := tr ++ s.trace
        results := .bytes (List.zipWith (· ^^^ ·) B (keystreamBytes (keyBus K) (ivBus V) B.length)) :: s.results }
      ∧ tr.length = 257 + 8 * B.length ∧ ∀ a ∈ tr, a.resp = .ok

/-- A macro-operation that raises nothing does to the core, and shows the host, exactly what its expansion does
when its vectors are presented one by one (R41, R61 to R64). -/
def Obligations.MacroRefinesItsExpansion : Prop :=
  ∀ (s : State) (m : MacroCall), s.phase ≠ .init → RaisesNothing s m →
    ∃ t u, exec m.toInstr s = .next t
      ∧ runSteps (expansion m).length { s with inputs := (expansion m).map .vector } = .next u
      ∧ u.inputs = [] ∧ t.SameCore u ∧ t.trace = u.trace

/-! ## The laws of 43_macros.md section 5 -/

/-- Determinism: INITIALIZE and then NEXT_BYTES(n) return the same bytes, and INITIALIZE leaves the same registers,
from any two states of any two instances that are not busy (R67). -/
def Obligations.DeterminismOfTheStream : Prop :=
  ∀ (K V : List Byte) (n : Nat), K.length = 16 → V.length = 12 →
    ∃ (bs : List Byte) (r : Register × Register), ∀ s : State, s.phase ≠ .init →
      ∃ t u, exec (.initialise K V) s = .next t ∧ (t.L, t.N) = r
        ∧ exec (.nextBytes n none) t = .next u ∧ u.results = .bytes bs :: t.results

/-- Involution, and that decryption is the identical operation: PROCESS of the result of PROCESS with the same key
and IV returns the message, from any states that are not busy (R65, R68). -/
def Obligations.ProcessIsAnInvolution : Prop :=
  ∀ (K V B : List Byte), K.length = 16 → V.length = 12 →
    ∃ C : List Byte, C.length = B.length
      ∧ (∀ s : State, s.phase ≠ .init →
        ∃ t, exec (.process K V B none) s = .next t ∧ t.results = .bytes C :: s.results)
      ∧ (∀ s : State, s.phase ≠ .init →
        ∃ t, exec (.process K V C none) s = .next t ∧ t.results = .bytes B :: s.results)

/-- Resumability: NEXT_BYTES(a + b) returns what NEXT_BYTES(a) and then NEXT_BYTES(b) return, end to end, and leaves
the same core (R69). -/
def Obligations.StreamIsResumable : Prop :=
  ∀ (s : State) (a b : Nat), s.phase = .run →
    ∃ (t u v : State) (xs ys : List Byte), exec (.nextBytes (a + b) none) s = .next t
      ∧ t.results = .bytes (xs ++ ys) :: s.results
      ∧ exec (.nextBytes a none) s = .next u ∧ u.results = .bytes xs :: s.results
      ∧ exec (.nextBytes b none) u = .next v ∧ v.results = .bytes ys :: u.results
      ∧ t.SameCore v ∧ t.trace = v.trace ∧ xs.length = a ∧ ys.length = b

/-- Chunking invariance: PROCESS of a buffer returns, and leaves in the core, what one INITIALIZE and then NEXT_BYTES
xor the chunk for each chunk in order does, however the buffer is cut (R66, R70). -/
def Obligations.ChunkingInvariance : Prop :=
  ∀ (s : State) (K V : List Byte) (chunks : List (List Byte)), s.phase ≠ .init → K.length = 16 → V.length = 12 →
    processOp K V chunks.flatten none s = chunkedOp chunks (initialiseOp K V s).1

/-- Zero-length requests: NEXT_BYTES(0) in RUN issues no step, changes no state and returns the empty string; PROCESS
of the empty buffer performs a complete INITIALIZE and returns the empty string (R71). The clause about wrong lengths
holds in INIT too, outside the precondition `busy = 0` of a macro-operation: there it is the model's choice (log entry
6). -/
def Obligations.ZeroLengthRequests : Prop :=
  (∀ s : State, s.phase = .run → exec (.nextBytes 0 none) s = .next { s with results := .bytes [] :: s.results })
    ∧ (∀ (s : State) (K V : List Byte), s.phase ≠ .init → K.length = 16 → V.length = 12 →
      ∃ t, exec (.initialise K V) s = .next t
        ∧ exec (.process K V [] none) s = .next { t with results := .bytes [] :: s.results })
    ∧ (∀ (s : State) (K V : List Byte), K.length ≠ 16 ∨ V.length ≠ 12 →
      ∃ e, exec (.process K V [] none) s = .next { s with results := .error e :: s.results })

/-! ## Byte order -/

/-- `expand` gives bit `i mod 8` of byte `i div 8` in place `i`, and read as an integer is the little-endian integer
of the byte string (R19). -/
def Obligations.ExpandIsLsbFirst : Prop :=
  (∀ B : List Byte, (expand B).length = 8 * B.length
      ∧ ∀ i < 8 * B.length, (expand B).getD i false = (B.getD (i / 8) 0).getLsbD (i % 8))
    ∧ (∀ (b : Byte) (B : List Byte), bitsValue (expand (b :: B)) = b.toNat + 2 ^ 8 * bitsValue (expand B))
    ∧ bitsValue (expand []) = 0 ∧ bitsValue (expand [0x00, 0x01, 0x02, 0x03]) = 0x03020100

/-- `pack` puts bit `8j + i` of a sequence of `8n` bits at bit `i` of byte `j`, is the inverse of `expand` both ways,
and has the rule's worked example (R22). -/
def Obligations.PackInvertsExpand : Prop :=
  (∀ (s : List Bool) (n : Nat), s.length = 8 * n → (pack s).length = n
      ∧ (∀ j < n, ∀ i < 8, ((pack s).getD j 0).getLsbD i = s.getD (8 * j + i) false) ∧ expand (pack s) = s)
    ∧ (∀ B : List Byte, pack (expand B) = B)
    ∧ pack [false, false, false, false, true, true, true, true] = [0xF0]

/-! ## The source's examples -/

/-- The two known-answer vectors, from every state that is not busy: sixteen keystream bytes of the all-zero key and
IV, and the 24 ciphertext bytes of the counting key and IV (95_test_vectors.md section 1). -/
def Obligations.KnownAnswers : Prop :=
  (∀ s : State, s.phase ≠ .init → ∃ t u,
      exec (.initialise (List.replicate 16 0) (List.replicate 12 0)) s = .next t
        ∧ t.L = 0xBB5172ACD49E6D188A8B7554E25774CD ∧ t.N = 0x3D5AC48773554E1ED5DF5164A0EEDBB9
        ∧ exec (.nextBytes 16 none) t = .next u
        ∧ u.results = .bytes [0xF0, 0x9B, 0x7B, 0xF7, 0xD7, 0xF6, 0xB5, 0xC2, 0xDE, 0x2F, 0xFC, 0x73, 0xAC, 0x21,
            0x39, 0x7F] :: t.results)
    ∧ (∀ s : State, s.phase ≠ .init → ∃ t,
      exec (.process ((List.range 16).map (BitVec.ofNat 8)) ((List.range 12).map (BitVec.ofNat 8))
          ((List.range 24).map fun i => BitVec.ofNat 8 (i * 3 + 1)) none) s = .next t
        ∧ t.results = .bytes [0x8B, 0x3D, 0xBE, 0xA4, 0x17, 0x57, 0xB5, 0xFC, 0x05, 0xB0, 0x57, 0xFB, 0x54, 0x4A,
            0xB0, 0x73, 0xEC, 0xC0, 0x65, 0xD9, 0xC3, 0x7D, 0x85, 0x10] :: s.results)
end

