-- ==== Sys2Proof/Laws/Decode.lean ====
section
/-! SUPPORT. The fields of a packed input vector, what a vector decodes to, and what a statement assembles to. -/

namespace Sys2Proof

section Fields

variable (rst : Bool) (c : Cmd) (klen ivlen : LenField) (key : KeyBus) (iv : IvBus)

/-- Bit `i` of a packed vector lies in the field R31 gives it. -/
theorem packVector_getLsbD (i : Nat) :
    (packVector rst c klen ivlen key iv).getLsbD i =
      if i < 1 then (BitVec.ofBool rst).getLsbD i
      else if i < 3 then (cmdBits c).getLsbD (i - 1)
      else if i < 8 then klen.getLsbD (i - 3)
      else if i < 13 then ivlen.getLsbD (i - 8)
      else if i < 141 then key.getLsbD (i - 13)
      else iv.getLsbD (i - 141) := by
  have e : (packVector rst c klen ivlen key iv).getLsbD i =
      (iv ++ key ++ ivlen ++ klen ++ cmdBits c ++ BitVec.ofBool rst :
        BitVec (96 + 128 + 5 + 5 + 2 + 1)).getLsbD i := rfl
  rw [e, BitVec.getLsbD_append, BitVec.getLsbD_append, BitVec.getLsbD_append, BitVec.getLsbD_append,
    BitVec.getLsbD_append]
  split
  · rfl
  · have h1 : (i - 1 < 2) = (i < 3) := by simp; omega
    have h2 : (i - 3 < 5) = (i < 8) := by simp; omega
    have h3 : (i - 8 < 5) = (i < 13) := by simp; omega
    have h4 : (i - 13 < 128) = (i < 141) := by simp; omega
    simp only [Nat.sub_sub, Nat.reduceAdd, h1, h2, h3, h4]

@[simp] theorem cmdOfBits_cmdBits : cmdOfBits (cmdBits c) = c := by cases c <;> rfl

@[simp] theorem iwRst_packVector : iwRst (packVector rst c klen ivlen key iv) = rst := by
  rw [iwRst, packVector_getLsbD]
  simp

/-- The slice of a packed vector that starts where a field does is the field. -/
theorem extract_packVector (lo n : Nat) (f : BitVec n)
    (h : ∀ i < n, (packVector rst c klen ivlen key iv).getLsbD (lo + i) = f.getLsbD i) :
    (packVector rst c klen ivlen key iv).extractLsb' lo n = f := by
  apply BitVec.eq_of_getLsbD_eq
  intro i hi
  rw [BitVec.getLsbD_extractLsb', h i hi]
  simp [hi]

@[simp] theorem iwCmdBits_packVector : iwCmdBits (packVector rst c klen ivlen key iv) = cmdBits c := by
  refine extract_packVector _ _ _ _ _ _ 1 2 _ fun i hi => ?_
  rw [packVector_getLsbD, if_neg (by omega), if_pos (by omega), Nat.add_sub_cancel_left]

@[simp] theorem iwCmd_packVector : iwCmd (packVector rst c klen ivlen key iv) = c := by
  rw [iwCmd, iwCmdBits_packVector, cmdOfBits_cmdBits]

@[simp] theorem iwKlen_packVector : iwKlen (packVector rst c klen ivlen key iv) = klen := by
  refine extract_packVector _ _ _ _ _ _ 3 5 _ fun i hi => ?_
  rw [packVector_getLsbD, if_neg (by omega), if_neg (by omega), if_pos (by omega), Nat.add_sub_cancel_left]

@[simp] theorem iwIvlen_packVector : iwIvlen (packVector rst c klen ivlen key iv) = ivlen := by
  refine extract_packVector _ _ _ _ _ _ 8 5 _ fun i hi => ?_
  rw [packVector_getLsbD, if_neg (by omega), if_neg (by omega), if_neg (by omega), if_pos (by omega),
    Nat.add_sub_cancel_left]

@[simp] theorem iwKey_packVector : iwKey (packVector rst c klen ivlen key iv) = key := by
  refine extract_packVector _ _ _ _ _ _ 13 128 _ fun i hi => ?_
  rw [packVector_getLsbD, if_neg (by omega), if_neg (by omega), if_neg (by omega), if_neg (by omega),
    if_pos (by omega), Nat.add_sub_cancel_left]

@[simp] theorem iwIv_packVector : iwIv (packVector rst c klen ivlen key iv) = iv := by
  refine extract_packVector _ _ _ _ _ _ 141 96 _ fun i hi => ?_
  rw [packVector_getLsbD, if_neg (by omega), if_neg (by omega), if_neg (by omega), if_neg (by omega),
    if_neg (by omega), Nat.add_sub_cancel_left]

/-- The opcode bits `IW[2:0]` of a packed vector, under the opcode table's widest mask (R31, R39). -/
theorem packVector_and_seven :
    packVector rst c klen ivlen key iv &&& 0x7 = (cmdBits c ++ BitVec.ofBool rst).setWidth 237 := by
  apply BitVec.eq_of_getLsbD_eq
  intro i hi
  rw [BitVec.getLsbD_and, packVector_getLsbD, BitVec.getLsbD_setWidth, BitVec.getLsbD_append]
  have seven : (0x7 : InputVector).getLsbD i = decide (i < 3) := by
    by_cases h : i < 3
    · obtain rfl | rfl | rfl : i = 0 ∨ i = 1 ∨ i = 2 := by omega
      all_goals rfl
    · have : (7 : Nat).testBit i = false := Nat.testBit_lt_two_pow (by
        calc 7 < 2 ^ 3 := by decide
          _ ≤ 2 ^ i := Nat.pow_le_pow_right (by decide) (by omega))
      simp [BitVec.getLsbD, this, h]
  rw [seven]
  by_cases h1 : i < 1
  · simp [h1, hi]; omega
  · by_cases h3 : i < 3
    · simp [h1, h3, hi]
    · simp [h1, h3, show 2 ≤ i - 1 by omega]

end Fields

/-! ## What a vector decodes to -/

theorem decode_of_rst {p : Phase} {w : InputVector} (h : iwRst w = true) : decode p w = .reset := by
  simp [decode, h]

theorem decode_of_init {w : InputVector} (h : iwRst w = false) : decode .init w = .iclk (iwCmd w) := by
  simp [decode, h]

theorem decode_of_not_init {p : Phase} {w : InputVector} (h : iwRst w = false) (hp : p ≠ .init) :
    decode p w = match iwCmd w with
      | .nop => .nop
      | .load => .load (iwKlen w) (iwIvlen w) (iwKey w) (iwIv w)
      | .next => .next
      | .rsvd => .rsvd := by
  unfold decode
  cases hc : iwCmd w <;> simp [h, hp]

/-! ## What a statement assembles to -/

/-- An illegal statement assembles to nothing. -/
theorem assemble_illegal {t : Statement} (h : t.wellFormed = false) : assemble t = .error .illegalLoad := by
  unfold assemble
  exact if_neg (by simp [h])

/-- A legal LOAD assembles to the one vector of its lengths and buses. -/
theorem assemble_load {K V : List Byte} {kl vl : Option Nat} (h : (Statement.load K V kl vl).wellFormed = true) :
    assemble (.load K V kl vl) = .ok [.vector (loadVector (BitVec.ofNat 5 (kl.getD Config.keyBytes))
      (BitVec.ofNat 5 (vl.getD Config.ivBytes)) (Machine.keyBus K) (Machine.ivBus V))] := by
  unfold assemble
  exact if_pos h

/-- Only a LOAD can be illegal. -/
theorem illegal_is_load {t : Statement} (h : t.wellFormed = false) : ∃ K V kl vl, t = .load K V kl vl := by
  cases t with
  | load K V kl vl => exact ⟨K, V, kl, vl, rfl⟩
  | reset => cases h
  | nop rep => cases h
  | next rep => cases h
  | rsvd => cases h
  | pseudo m => cases h

end Sys2Proof
end

