-- ==== Sys2Proof/Laws/Operands.lean ====
section
/-! SUPPORT. The byte forms: lengths, `pack` of a sequence that is continued, and the bits of `bitsValue`. -/

namespace Sys2Proof.Machine

@[simp] theorem expand_length (B : List Byte) : (expand B).length = 8 * B.length := by simp [expand]

@[simp] theorem pack_length (s : List Bool) : (pack s).length = s.length / 8 := by simp [pack]

/-- The sideband shows a length below 31 as it is (R33). -/
theorem lenField_eq {n m : Nat} (hm : m < 31) : lenField n = BitVec.ofNat 5 m ↔ n = m := by
  constructor
  · intro h
    have e := congrArg BitVec.toNat h
    simp only [lenField, BitVec.toNat_ofNat] at e
    omega
  · rintro rfl
    simp [lenField, Nat.min_eq_left (Nat.le_of_lt hm)]

@[simp] theorem xorBytes_length (a b : List Byte) : (xorBytes a b).length = min a.length b.length := by
  simp [xorBytes]

/-- A byte of `pack` depends on its own eight bits only. -/
theorem packByte_congr {s t : List Bool} {j k : Nat}
    (h : ∀ i < 8, s.getD (8 * j + i) false = t.getD (8 * k + i) false) : packByte s j = packByte t k := by
  have e : (List.range 8).map (fun i => s.getD (8 * j + i) false) =
      (List.range 8).map (fun i => t.getD (8 * k + i) false) :=
    List.map_congr_left fun i hi => h i (List.mem_range.1 hi)
  rw [packByte, packByte, e]

/-- `pack` of whole bytes followed by more is `pack` of each (R22, R69). -/
theorem pack_append {a b : List Bool} {n : Nat} (h : a.length = 8 * n) : pack (a ++ b) = pack a ++ pack b := by
  have ea : a.length / 8 = n := by omega
  have eab : (a ++ b).length / 8 = n + b.length / 8 := by rw [List.length_append]; omega
  have hl : ∀ j ∈ List.range n, packByte (a ++ b) j = packByte a j := fun j hj => by
    have := List.mem_range.1 hj
    exact packByte_congr fun i hi => List.getD_append _ _ _ _ (by omega)
  have hr : ∀ j, packByte (a ++ b) (n + j) = packByte b j := fun j =>
    packByte_congr fun i hi => by
      rw [List.getD_append_right _ _ _ _ (by omega), show 8 * (n + j) + i - a.length = 8 * j + i by omega]
  rw [pack, pack, pack, ea, eab, List.range_add, List.map_append, List.map_map, List.map_congr_left hl]
  exact congrArg _ (List.map_congr_left fun j _ => hr j)

/-- A sequence of `n` bits is a number below `2^n` (R19). -/
theorem bitsValue_lt (s : List Bool) : bitsValue s < 2 ^ s.length := by
  induction s with
  | nil => decide
  | cons b s ih =>
    rw [bitsValue, List.length_cons, Nat.pow_succ]
    cases b <;> simp <;> omega

/-- Bit `i` of the number is bit `i` of the sequence (R19). -/
theorem bitsValue_testBit (s : List Bool) (i : Nat) : (bitsValue s).testBit i = s.getD i false := by
  induction s generalizing i with
  | nil => simp [bitsValue]
  | cons b s ih =>
    cases i with
    | zero => cases b <;> simp [bitsValue, Nat.testBit_zero]
    | succ i =>
      have h : (b.toNat + 2 * bitsValue s) / 2 = bitsValue s := by cases b <;> simp; omega
      rw [bitsValue, Nat.testBit_succ, h, ih]
      simp

end Sys2Proof.Machine
end

