-- ==== Sys2Proof/Laws/Networks.lean ====
section
/-! SUPPORT. What the shift and the clocks do, bit by bit. -/

namespace Sys2Proof.Machine

@[simp] theorem shift_getLsbD (X : Register) (b : Bool) (i : Nat) :
    (shift X b).getLsbD i = if i = 127 then b else decide (i < 127) && X.getLsbD (i + 1) := by
  rw [shift, BitVec.getLsbD_cons]
  split
  · rfl
  · simp [Nat.add_comm]

@[simp] theorem shift_getElem (X : Register) (b : Bool) (i : Nat) (hi : i < 128) :
    (shift X b)[i] = if i = 127 then b else X.getLsbD (i + 1) := by
  rw [← BitVec.getLsbD_eq_getElem, shift_getLsbD]
  split
  · rfl
  · simp [show i < 127 by omega]

/-- Two registers are equal when their 128 bits are. -/
theorem register_ext {X Y : Register} (h : ∀ i < 128, X.getLsbD i = Y.getLsbD i) : X = Y :=
  BitVec.eq_of_getLsbD_eq h

theorem iclk_eq (L N : Register) :
    iclk (L, N) = (shift L (fL L ^^ z L N), shift N (fN L N ^^ z L N)) := rfl

theorem gclk_eq (L N : Register) : gclk (L, N) = (shift L (fL L), shift N (fN L N)) := rfl

/-- With the mixed bit 0 the two modes are one (R52). -/
theorem mixedClock_false (r : Register × Register) : mixedClock false r = gclk r := by
  simp [mixedClock, gclk]

end Sys2Proof.Machine
end

