-- ==== Sys2Proof/Laws/State.lean ====
section
/-! SUPPORT. One lemma per field for every update of the state, so that no proof unfolds a record update. -/

namespace Sys2Proof.Machine

variable (s : State)

/-! ## setRegs -/

@[simp] theorem setRegs_L (r : Register × Register) : (setRegs r s).L = r.1 := rfl
@[simp] theorem setRegs_N (r : Register × Register) : (setRegs r s).N = r.2 := rfl
@[simp] theorem setRegs_phase (r : Register × Register) : (setRegs r s).phase = s.phase := rfl
@[simp] theorem setRegs_cnt (r : Register × Register) : (setRegs r s).cnt = s.cnt := rfl
@[simp] theorem setRegs_draws (r : Register × Register) : (setRegs r s).draws = s.draws := rfl
@[simp] theorem setRegs_inputs (r : Register × Register) : (setRegs r s).inputs = s.inputs := rfl
@[simp] theorem setRegs_trace (r : Register × Register) : (setRegs r s).trace = s.trace := rfl
@[simp] theorem setRegs_results (r : Register × Register) : (setRegs r s).results = s.results := rfl
@[simp] theorem setRegs_wire (r : Register × Register) : (setRegs r s).wire = s.wire := rfl

/-! ## setControl -/

@[simp] theorem setControl_L (p : Phase) (c : Count) : (setControl p c s).L = s.L := rfl
@[simp] theorem setControl_N (p : Phase) (c : Count) : (setControl p c s).N = s.N := rfl
@[simp] theorem setControl_phase (p : Phase) (c : Count) : (setControl p c s).phase = p := rfl
@[simp] theorem setControl_cnt (p : Phase) (c : Count) : (setControl p c s).cnt = c := rfl
@[simp] theorem setControl_draws (p : Phase) (c : Count) : (setControl p c s).draws = s.draws := rfl
@[simp] theorem setControl_inputs (p : Phase) (c : Count) : (setControl p c s).inputs = s.inputs := rfl
@[simp] theorem setControl_trace (p : Phase) (c : Count) : (setControl p c s).trace = s.trace := rfl
@[simp] theorem setControl_results (p : Phase) (c : Count) : (setControl p c s).results = s.results := rfl
@[simp] theorem setControl_wire (p : Phase) (c : Count) : (setControl p c s).wire = s.wire := rfl

/-! ## setWire -/

@[simp] theorem setWire_L (b : Bool) : (setWire b s).L = s.L := rfl
@[simp] theorem setWire_N (b : Bool) : (setWire b s).N = s.N := rfl
@[simp] theorem setWire_phase (b : Bool) : (setWire b s).phase = s.phase := rfl
@[simp] theorem setWire_cnt (b : Bool) : (setWire b s).cnt = s.cnt := rfl
@[simp] theorem setWire_draws (b : Bool) : (setWire b s).draws = s.draws := rfl
@[simp] theorem setWire_inputs (b : Bool) : (setWire b s).inputs = s.inputs := rfl
@[simp] theorem setWire_trace (b : Bool) : (setWire b s).trace = s.trace := rfl
@[simp] theorem setWire_results (b : Bool) : (setWire b s).results = s.results := rfl
@[simp] theorem setWire_wire (b : Bool) : (setWire b s).wire = b := rfl

/-! ## deliver -/

@[simp] theorem deliver_L (r : Result) : (deliver r s).L = s.L := rfl
@[simp] theorem deliver_N (r : Result) : (deliver r s).N = s.N := rfl
@[simp] theorem deliver_phase (r : Result) : (deliver r s).phase = s.phase := rfl
@[simp] theorem deliver_cnt (r : Result) : (deliver r s).cnt = s.cnt := rfl
@[simp] theorem deliver_draws (r : Result) : (deliver r s).draws = s.draws := rfl
@[simp] theorem deliver_inputs (r : Result) : (deliver r s).inputs = s.inputs := rfl
@[simp] theorem deliver_trace (r : Result) : (deliver r s).trace = s.trace := rfl
@[simp] theorem deliver_results (r : Result) : (deliver r s).results = r :: s.results := rfl
@[simp] theorem deliver_wire (r : Result) : (deliver r s).wire = s.wire := rfl

/-! ## withInputs -/

@[simp] theorem withInputs_L (q : List Request) : (withInputs q s).L = s.L := rfl
@[simp] theorem withInputs_N (q : List Request) : (withInputs q s).N = s.N := rfl
@[simp] theorem withInputs_phase (q : List Request) : (withInputs q s).phase = s.phase := rfl
@[simp] theorem withInputs_cnt (q : List Request) : (withInputs q s).cnt = s.cnt := rfl
@[simp] theorem withInputs_draws (q : List Request) : (withInputs q s).draws = s.draws := rfl
@[simp] theorem withInputs_inputs (q : List Request) : (withInputs q s).inputs = q := rfl
@[simp] theorem withInputs_trace (q : List Request) : (withInputs q s).trace = s.trace := rfl
@[simp] theorem withInputs_results (q : List Request) : (withInputs q s).results = s.results := rfl
@[simp] theorem withInputs_wire (q : List Request) : (withInputs q s).wire = s.wire := rfl

/-! ## observed -/

@[simp] theorem observed_L (r : Resp) (b : Option Bool) : (observed r b s).L = s.L := rfl
@[simp] theorem observed_N (r : Resp) (b : Option Bool) : (observed r b s).N = s.N := rfl
@[simp] theorem observed_phase (r : Resp) (b : Option Bool) : (observed r b s).phase = s.phase := rfl
@[simp] theorem observed_cnt (r : Resp) (b : Option Bool) : (observed r b s).cnt = s.cnt := rfl
@[simp] theorem observed_draws (r : Resp) (b : Option Bool) : (observed r b s).draws = s.draws := rfl
@[simp] theorem observed_inputs (r : Resp) (b : Option Bool) : (observed r b s).inputs = s.inputs := rfl
@[simp] theorem observed_trace (r : Resp) (b : Option Bool) : (observed r b s).trace = { resp := r, taken := b, ready := ready s, busy := busy s, zOut := zOut s } :: s.trace := rfl
@[simp] theorem observed_results (r : Resp) (b : Option Bool) : (observed r b s).results = s.results := rfl
@[simp] theorem observed_wire (r : Resp) (b : Option Bool) : (observed r b s).wire = s.wire := rfl

/-! ## resetCore -/

@[simp] theorem resetCore_L : (resetCore s).L = Config.resetL s.draws := rfl
@[simp] theorem resetCore_N : (resetCore s).N = Config.resetN s.draws := rfl
@[simp] theorem resetCore_phase : (resetCore s).phase = .idle := rfl
@[simp] theorem resetCore_cnt : (resetCore s).cnt = 0 := rfl
@[simp] theorem resetCore_draws : (resetCore s).draws = s.draws + 1 := rfl
@[simp] theorem resetCore_inputs : (resetCore s).inputs = s.inputs := rfl
@[simp] theorem resetCore_trace : (resetCore s).trace = s.trace := rfl
@[simp] theorem resetCore_results : (resetCore s).results = s.results := rfl
@[simp] theorem resetCore_wire : (resetCore s).wire = s.wire := rfl

/-! ## loadCore -/

@[simp] theorem loadCore_L (key : KeyBus) (iv : IvBus) : (loadCore key iv s).L = loadedL iv := rfl
@[simp] theorem loadCore_N (key : KeyBus) (iv : IvBus) : (loadCore key iv s).N = loadedN key := rfl
@[simp] theorem loadCore_phase (key : KeyBus) (iv : IvBus) : (loadCore key iv s).phase = .init := rfl
@[simp] theorem loadCore_cnt (key : KeyBus) (iv : IvBus) : (loadCore key iv s).cnt = 0 := rfl
@[simp] theorem loadCore_draws (key : KeyBus) (iv : IvBus) : (loadCore key iv s).draws = s.draws := rfl
@[simp] theorem loadCore_inputs (key : KeyBus) (iv : IvBus) : (loadCore key iv s).inputs = s.inputs := rfl
@[simp] theorem loadCore_trace (key : KeyBus) (iv : IvBus) : (loadCore key iv s).trace = s.trace := rfl
@[simp] theorem loadCore_results (key : KeyBus) (iv : IvBus) : (loadCore key iv s).results = s.results := rfl
@[simp] theorem loadCore_wire (key : KeyBus) (iv : IvBus) : (loadCore key iv s).wire = s.wire := rfl

/-! ## warmCore -/

@[simp] theorem warmCore_L : (warmCore s).L = (iclk (s.L, s.N)).1 := rfl
@[simp] theorem warmCore_N : (warmCore s).N = (iclk (s.L, s.N)).2 := rfl
@[simp] theorem warmCore_phase : (warmCore s).phase = if s.cnt + 1#9 = 256#9 then .run else s.phase := rfl
@[simp] theorem warmCore_cnt : (warmCore s).cnt = s.cnt + 1#9 := rfl
@[simp] theorem warmCore_draws : (warmCore s).draws = s.draws := rfl
@[simp] theorem warmCore_inputs : (warmCore s).inputs = s.inputs := rfl
@[simp] theorem warmCore_trace : (warmCore s).trace = s.trace := rfl
@[simp] theorem warmCore_results : (warmCore s).results = s.results := rfl
@[simp] theorem warmCore_wire : (warmCore s).wire = s.wire := rfl

/-! ## generateCore -/

@[simp] theorem generateCore_L : (generateCore s).L = (gclk (s.L, s.N)).1 := rfl
@[simp] theorem generateCore_N : (generateCore s).N = (gclk (s.L, s.N)).2 := rfl
@[simp] theorem generateCore_phase : (generateCore s).phase = s.phase := rfl
@[simp] theorem generateCore_cnt : (generateCore s).cnt = s.cnt := rfl
@[simp] theorem generateCore_draws : (generateCore s).draws = s.draws := rfl
@[simp] theorem generateCore_inputs : (generateCore s).inputs = s.inputs := rfl
@[simp] theorem generateCore_trace : (generateCore s).trace = s.trace := rfl
@[simp] theorem generateCore_results : (generateCore s).results = s.results := rfl
@[simp] theorem generateCore_wire : (generateCore s).wire = s.wire := rfl

/-! ## writeReg -/

@[simp] theorem writeReg_L_L (X : Register) : (writeReg .L X s).L = X := rfl
@[simp] theorem writeReg_N_L (X : Register) : (writeReg .N X s).L = s.L := rfl
@[simp] theorem writeReg_L_N (X : Register) : (writeReg .L X s).N = s.N := rfl
@[simp] theorem writeReg_N_N (X : Register) : (writeReg .N X s).N = X := rfl
@[simp] theorem writeReg_phase (r : RegName) (X : Register) : (writeReg r X s).phase = s.phase := by cases r <;> rfl
@[simp] theorem writeReg_cnt (r : RegName) (X : Register) : (writeReg r X s).cnt = s.cnt := by cases r <;> rfl
@[simp] theorem writeReg_draws (r : RegName) (X : Register) : (writeReg r X s).draws = s.draws := by cases r <;> rfl
@[simp] theorem writeReg_inputs (r : RegName) (X : Register) : (writeReg r X s).inputs = s.inputs := by cases r <;> rfl
@[simp] theorem writeReg_trace (r : RegName) (X : Register) : (writeReg r X s).trace = s.trace := by cases r <;> rfl
@[simp] theorem writeReg_results (r : RegName) (X : Register) : (writeReg r X s).results = s.results := by cases r <;> rfl
@[simp] theorem writeReg_wire (r : RegName) (X : Register) : (writeReg r X s).wire = s.wire := by cases r <;> rfl

/-! ## The outputs read only the core -/

@[simp] theorem ready_setWire (b : Bool) : ready (setWire b s) = ready s := rfl
@[simp] theorem busy_setWire (b : Bool) : busy (setWire b s) = busy s := rfl
@[simp] theorem zOut_setWire (b : Bool) : zOut (setWire b s) = zOut s := rfl
@[simp] theorem ready_deliver (r : Result) : ready (deliver r s) = ready s := rfl
@[simp] theorem busy_deliver (r : Result) : busy (deliver r s) = busy s := rfl
@[simp] theorem zOut_deliver (r : Result) : zOut (deliver r s) = zOut s := rfl
@[simp] theorem ready_withInputs (q : List Request) : ready (withInputs q s) = ready s := rfl
@[simp] theorem busy_withInputs (q : List Request) : busy (withInputs q s) = busy s := rfl
@[simp] theorem zOut_withInputs (q : List Request) : zOut (withInputs q s) = zOut s := rfl
@[simp] theorem ready_observed (r : Resp) (b : Option Bool) : ready (observed r b s) = ready s := rfl
@[simp] theorem busy_observed (r : Resp) (b : Option Bool) : busy (observed r b s) = busy s := rfl
@[simp] theorem zOut_observed (r : Resp) (b : Option Bool) : zOut (observed r b s) = zOut s := rfl

end Sys2Proof.Machine
end

