-- ==== Sys2Proof/Laws/Ops.lean ====
section
/-! SUPPORT. Everything each edge can do, phase by phase; what no edge touches; and that an edge does not look at what
the host will ask for next. -/

namespace Sys2Proof.Machine

variable {s : State}

/-! ## The selection of R53 -/

theorem unlessInit_of_init {c : Cmd} {f : State → State} (h : s.phase = .init) : unlessInit c f s = warmUp c s :=
  if_pos h

theorem unlessInit_of_ne {c : Cmd} {f : State → State} (h : s.phase ≠ .init) : unlessInit c f s = f s :=
  if_neg h

/-- What holds of the warm-up step and of the obeyed command holds of the edge. -/
theorem unlessInit_induction {P : State → Prop} {c : Cmd} {f : State → State} (hw : s.phase = .init → P (warmUp c s))
    (hf : s.phase ≠ .init → P (f s)) : P (unlessInit c f s) := by
  by_cases h : s.phase = .init
  · rw [unlessInit_of_init h]; exact hw h
  · rw [unlessInit_of_ne h]; exact hf h

/-! ## In INIT (R57) -/

theorem presentNop_of_init (h : s.phase = .init) : presentNop s = warmUp .nop s := unlessInit_of_init h

theorem presentLoad_of_init {kl vl : LenField} {k : KeyBus} {v : IvBus} (h : s.phase = .init) :
    presentLoad kl vl k v s = warmUp .load s := unlessInit_of_init h

theorem presentNext_of_init (h : s.phase = .init) : presentNext s = warmUp .next s := unlessInit_of_init h

theorem presentRsvd_of_init (h : s.phase = .init) : presentRsvd s = warmUp .rsvd s := unlessInit_of_init h

theorem presentCommand_of_init {c : Cmd} (h : s.phase = .init) : presentCommand c s = warmUp c s := by
  cases c
  · exact presentNop_of_init h
  · exact presentLoad_of_init h
  · exact presentNext_of_init h
  · exact presentRsvd_of_init h

/-! ## In IDLE and RUN (R54, R55, R58, R59) -/

theorem presentNop_of_ne (h : s.phase ≠ .init) : presentNop s = observed .ok none s := unlessInit_of_ne h

theorem presentLoad_accepted {k : KeyBus} {v : IvBus} (h : s.phase ≠ .init) :
    presentLoad 16 12 k v s = observed .ok none (loadCore k v s) := by
  rw [presentLoad, unlessInit_of_ne h]
  rfl

theorem presentLoad_keyLen {kl vl : LenField} {k : KeyBus} {v : IvBus} (h : s.phase ≠ .init) (hk : kl ≠ 16) :
    presentLoad kl vl k v s = refuseCommand .eKeyLen s := by
  rw [presentLoad, unlessInit_of_ne h, if_pos hk]

theorem presentLoad_ivLen {vl : LenField} {k : KeyBus} {v : IvBus} (h : s.phase ≠ .init) (hv : vl ≠ 12) :
    presentLoad 16 vl k v s = refuseCommand .eIvLen s := by
  rw [presentLoad, unlessInit_of_ne h, if_neg (by simp), if_pos hv]

theorem presentNext_of_run (h : s.phase = .run) :
    presentNext s = observed .ok (some (z s.L s.N)) (generateCore s) := by
  rw [presentNext, unlessInit_of_ne (by simp [h]), if_pos h, zOut, if_pos h]

theorem presentNext_of_idle (h : s.phase = .idle) : presentNext s = refuseCommand .eNotReady s := by
  rw [presentNext, unlessInit_of_ne (by simp [h]), if_neg (by simp [h])]

theorem presentRsvd_of_ne (h : s.phase ≠ .init) : presentRsvd s = refuseCommand .eIllCmd s := unlessInit_of_ne h

/-! ## What no edge touches -/

section Untouched

variable (s : State)

@[simp] theorem warmUp_draws (c : Cmd) : (warmUp c s).draws = s.draws := rfl
@[simp] theorem warmUp_inputs (c : Cmd) : (warmUp c s).inputs = s.inputs := rfl
@[simp] theorem warmUp_results (c : Cmd) : (warmUp c s).results = s.results := rfl
@[simp] theorem warmUp_wire (c : Cmd) : (warmUp c s).wire = s.wire := rfl

@[simp] theorem refuseCommand_draws (r : Resp) : (refuseCommand r s).draws = s.draws := rfl
@[simp] theorem refuseCommand_inputs (r : Resp) : (refuseCommand r s).inputs = s.inputs := rfl
@[simp] theorem refuseCommand_results (r : Resp) : (refuseCommand r s).results = s.results := rfl
@[simp] theorem refuseCommand_wire (r : Resp) : (refuseCommand r s).wire = s.wire := rfl

@[simp] theorem presentNop_draws : (presentNop s).draws = s.draws :=
  unlessInit_induction (P := fun t => t.draws = s.draws) (fun _ => rfl) fun _ => rfl
@[simp] theorem presentNop_inputs : (presentNop s).inputs = s.inputs :=
  unlessInit_induction (P := fun t => t.inputs = s.inputs) (fun _ => rfl) fun _ => rfl
@[simp] theorem presentNop_results : (presentNop s).results = s.results :=
  unlessInit_induction (P := fun t => t.results = s.results) (fun _ => rfl) fun _ => rfl
@[simp] theorem presentNop_wire : (presentNop s).wire = s.wire :=
  unlessInit_induction (P := fun t => t.wire = s.wire) (fun _ => rfl) fun _ => rfl

@[simp] theorem presentLoad_draws (kl vl : LenField) (k : KeyBus) (v : IvBus) : (presentLoad kl vl k v s).draws = s.draws := by
  refine unlessInit_induction (P := fun t => t.draws = s.draws) (fun _ => rfl) fun _ => ?_
  split
  · rfl
  · split <;> rfl
@[simp] theorem presentLoad_inputs (kl vl : LenField) (k : KeyBus) (v : IvBus) : (presentLoad kl vl k v s).inputs = s.inputs := by
  refine unlessInit_induction (P := fun t => t.inputs = s.inputs) (fun _ => rfl) fun _ => ?_
  split
  · rfl
  · split <;> rfl
@[simp] theorem presentLoad_results (kl vl : LenField) (k : KeyBus) (v : IvBus) : (presentLoad kl vl k v s).results = s.results := by
  refine unlessInit_induction (P := fun t => t.results = s.results) (fun _ => rfl) fun _ => ?_
  split
  · rfl
  · split <;> rfl
@[simp] theorem presentLoad_wire (kl vl : LenField) (k : KeyBus) (v : IvBus) : (presentLoad kl vl k v s).wire = s.wire := by
  refine unlessInit_induction (P := fun t => t.wire = s.wire) (fun _ => rfl) fun _ => ?_
  split
  · rfl
  · split <;> rfl

@[simp] theorem presentNext_draws : (presentNext s).draws = s.draws := by
  refine unlessInit_induction (P := fun t => t.draws = s.draws) (fun _ => rfl) fun _ => ?_
  split <;> rfl
@[simp] theorem presentNext_inputs : (presentNext s).inputs = s.inputs := by
  refine unlessInit_induction (P := fun t => t.inputs = s.inputs) (fun _ => rfl) fun _ => ?_
  split <;> rfl
@[simp] theorem presentNext_results : (presentNext s).results = s.results := by
  refine unlessInit_induction (P := fun t => t.results = s.results) (fun _ => rfl) fun _ => ?_
  split <;> rfl
@[simp] theorem presentNext_wire : (presentNext s).wire = s.wire := by
  refine unlessInit_induction (P := fun t => t.wire = s.wire) (fun _ => rfl) fun _ => ?_
  split <;> rfl

@[simp] theorem presentRsvd_draws : (presentRsvd s).draws = s.draws :=
  unlessInit_induction (P := fun t => t.draws = s.draws) (fun _ => rfl) fun _ => rfl
@[simp] theorem presentRsvd_inputs : (presentRsvd s).inputs = s.inputs :=
  unlessInit_induction (P := fun t => t.inputs = s.inputs) (fun _ => rfl) fun _ => rfl
@[simp] theorem presentRsvd_results : (presentRsvd s).results = s.results :=
  unlessInit_induction (P := fun t => t.results = s.results) (fun _ => rfl) fun _ => rfl
@[simp] theorem presentRsvd_wire : (presentRsvd s).wire = s.wire :=
  unlessInit_induction (P := fun t => t.wire = s.wire) (fun _ => rfl) fun _ => rfl

@[simp] theorem presentReset_inputs : (presentReset s).inputs = s.inputs := rfl
@[simp] theorem presentReset_results : (presentReset s).results = s.results := rfl
@[simp] theorem presentReset_wire : (presentReset s).wire = s.wire := rfl
@[simp] theorem presentCommand_draws (c : Cmd) : (presentCommand c s).draws = s.draws := by
  cases c <;> simp [presentCommand]
@[simp] theorem presentCommand_inputs (c : Cmd) : (presentCommand c s).inputs = s.inputs := by
  cases c <;> simp [presentCommand]
@[simp] theorem presentCommand_results (c : Cmd) : (presentCommand c s).results = s.results := by
  cases c <;> simp [presentCommand]
@[simp] theorem presentCommand_wire (c : Cmd) : (presentCommand c s).wire = s.wire := by
  cases c <;> simp [presentCommand]

end Untouched

/-! ## An edge does not look at what comes after it -/

section Ahead

variable (s : State) (q : List Request)

theorem warmUp_withInputs (c : Cmd) : warmUp c (withInputs q s) = withInputs q (warmUp c s) := rfl

theorem presentReset_withInputs : presentReset (withInputs q s) = withInputs q (presentReset s) := rfl

theorem presentNop_withInputs : presentNop (withInputs q s) = withInputs q (presentNop s) := by
  unfold presentNop unlessInit
  rw [withInputs_phase]
  split <;> rfl

theorem presentLoad_withInputs (kl vl : LenField) (k : KeyBus) (v : IvBus) :
    presentLoad kl vl k v (withInputs q s) = withInputs q (presentLoad kl vl k v s) := by
  unfold presentLoad unlessInit
  rw [withInputs_phase]
  split
  · rfl
  · dsimp only
    split
    · rfl
    · split <;> rfl

theorem presentNext_withInputs : presentNext (withInputs q s) = withInputs q (presentNext s) := by
  unfold presentNext unlessInit
  rw [withInputs_phase]
  split
  · rfl
  · dsimp only
    rw [withInputs_phase]
    split <;> rfl

theorem presentRsvd_withInputs : presentRsvd (withInputs q s) = withInputs q (presentRsvd s) := by
  unfold presentRsvd unlessInit
  rw [withInputs_phase]
  split <;> rfl

theorem presentCommand_withInputs (c : Cmd) :
    presentCommand c (withInputs q s) = withInputs q (presentCommand c s) := by
  cases c
  · exact presentNop_withInputs s q
  · exact presentLoad_withInputs s q 0 0 0 0
  · exact presentNext_withInputs s q
  · exact presentRsvd_withInputs s q

end Ahead

end Sys2Proof.Machine
end

