-- ==== Sys2Proof/Laws/Step.lean ====
section
/-! SUPPORT. Everything an edge with a given input vector can do, said once: proofs about the step take cases on
`Edge` and do not unfold the step again. -/

namespace Sys2Proof.Machine

/-- The possible next states of an edge with the vector `w`, each with the condition that selects it (R53). -/
inductive Edge (w : InputVector) (s : State) : State → Prop where
  | reset (rst : iwRst w = true) : Edge w s (presentReset s)
  | warm (rst : iwRst w = false) (ph : s.phase = .init) : Edge w s (warmUp (iwCmd w) s)
  | nop (rst : iwRst w = false) (ph : s.phase ≠ .init) (cmd : iwCmd w = .nop) : Edge w s (observed .ok none s)
  | loadKeyLen (rst : iwRst w = false) (ph : s.phase ≠ .init) (cmd : iwCmd w = .load) (len : iwKlen w ≠ 16) :
      Edge w s (refuseCommand .eKeyLen s)
  | loadIvLen (rst : iwRst w = false) (ph : s.phase ≠ .init) (cmd : iwCmd w = .load) (len : iwKlen w = 16)
      (ivlen : iwIvlen w ≠ 12) : Edge w s (refuseCommand .eIvLen s)
  | loadAccepted (rst : iwRst w = false) (ph : s.phase ≠ .init) (cmd : iwCmd w = .load) (len : iwKlen w = 16)
      (ivlen : iwIvlen w = 12) : Edge w s (observed .ok none (loadCore (iwKey w) (iwIv w) s))
  | next (rst : iwRst w = false) (ph : s.phase = .run) (cmd : iwCmd w = .next) :
      Edge w s (observed .ok (some (z s.L s.N)) (generateCore s))
  | nextIdle (rst : iwRst w = false) (ph : s.phase = .idle) (cmd : iwCmd w = .next) :
      Edge w s (refuseCommand .eNotReady s)
  | rsvd (rst : iwRst w = false) (ph : s.phase ≠ .init) (cmd : iwCmd w = .rsvd) :
      Edge w s (refuseCommand .eIllCmd s)

/-- An edge with any vector, decoded in the phase of the state, answers one of those next states. -/
theorem exec_decode_edge (w : InputVector) (s : State) :
    ∃ t, exec (decode s.phase w) s = .next t ∧ Edge w s t := by
  cases rst : iwRst w with
  | true => exact ⟨_, by rw [decode_of_rst rst]; rfl, .reset rst⟩
  | false =>
    by_cases ph : s.phase = .init
    · refine ⟨warmUp (iwCmd w) s, ?_, .warm rst ph⟩
      rw [ph, decode_of_init rst, ← presentCommand_of_init ph]
      rfl
    · rw [decode_of_not_init rst ph]
      cases cmd : iwCmd w with
      | nop => exact ⟨_, congrArg Host.Outcome.next (presentNop_of_ne ph), .nop rst ph cmd⟩
      | load =>
        by_cases len : iwKlen w = 16
        · by_cases ivlen : iwIvlen w = 12
          · refine ⟨_, congrArg Host.Outcome.next ?_, .loadAccepted rst ph cmd len ivlen⟩
            rw [len, ivlen, presentLoad_accepted ph]
          · refine ⟨_, congrArg Host.Outcome.next ?_, .loadIvLen rst ph cmd len ivlen⟩
            rw [len, presentLoad_ivLen ph ivlen]
        · exact ⟨_, congrArg Host.Outcome.next (presentLoad_keyLen ph len), .loadKeyLen rst ph cmd len⟩
      | next =>
        cases run : s.phase with
        | idle => exact ⟨_, congrArg Host.Outcome.next (presentNext_of_idle run), .nextIdle rst run cmd⟩
        | init => exact absurd run ph
        | run => exact ⟨_, congrArg Host.Outcome.next (presentNext_of_run run), .next rst run cmd⟩
      | rsvd => exact ⟨_, congrArg Host.Outcome.next (presentRsvd_of_ne ph), .rsvd rst ph cmd⟩

/-- The inversion form: whatever next state an edge answers is one of `Edge`'s. -/
theorem edge_of_exec_decode {w : InputVector} {s t : State} (h : exec (decode s.phase w) s = .next t) : Edge w s t := by
  obtain ⟨u, hu, e⟩ := exec_decode_edge w s
  rw [h] at hu
  cases hu
  exact e

/-- An edge does not look at what the host will ask for next. -/
theorem Edge.ahead {w : InputVector} {s t : State} (q : List Request) (e : Edge w s t) :
    Edge w (withInputs q s) (withInputs q t) := by
  cases e with
  | reset a => exact .reset a
  | warm a b => exact .warm a b
  | nop a b c => exact .nop a b c
  | loadKeyLen a b c d => exact .loadKeyLen a b c d
  | loadIvLen a b c d e => exact .loadIvLen a b c d e
  | loadAccepted a b c d e => exact .loadAccepted a b c d e
  | next a b c => exact .next a b c
  | nextIdle a b c => exact .nextIdle a b c
  | rsvd a b c => exact .rsvd a b c

/-- An edge has one outcome. -/
theorem Edge.unique {w : InputVector} {s t u : State} (e : Edge w s t) (f : Edge w s u) : t = u := by
  cases e <;> cases f <;> simp_all

/-- A step that is asked for a vector is an edge with it, whatever is asked for after it. -/
theorem step_presents (w : InputVector) (s : State) (rest : List Request) :
    ∃ t, Edge w s t ∧ step { s with inputs := .vector w :: rest } = .next { t with inputs := rest } := by
  obtain ⟨t, h, e⟩ := exec_decode_edge w s
  obtain ⟨u, hu, eu⟩ := exec_decode_edge w (withInputs rest s)
  refine ⟨t, e, ?_⟩
  exact hu.trans (congrArg Host.Outcome.next ((e.ahead rest).unique eu).symm)

/-- A run whose first step has a next state goes on from it. -/
theorem runSteps_succ {s t : State} (n : Nat) (h : step s = .next t) : runSteps (n + 1) s = runSteps n t := by
  simp [runSteps, h]

/-- A run asked for a vector first is an edge with it and then the rest of the run. -/
theorem runSteps_presents (n : Nat) (w : InputVector) (s : State) (rest : List Request) :
    ∃ t, Edge w s t
      ∧ runSteps (n + 1) { s with inputs := .vector w :: rest } = runSteps n { t with inputs := rest } := by
  obtain ⟨t, e, h⟩ := step_presents w s rest
  exact ⟨t, e, runSteps_succ n h⟩

/-- No edge touches what the host will ask for, what it was handed back, or the wire. -/
theorem Edge.untouched {w : InputVector} {s t : State} (e : Edge w s t) :
    t.inputs = s.inputs ∧ t.results = s.results ∧ t.wire = s.wire := by
  cases e <;> exact ⟨rfl, rfl, rfl⟩

/-- Every edge adds one observation, that of its outcome. -/
theorem Edge.trace {w : InputVector} {s t : State} (e : Edge w s t) :
    ∃ r b, t.trace = { resp := r, taken := b, ready := ready t, busy := busy t, zOut := zOut t } :: s.trace := by
  cases e <;> exact ⟨_, _, rfl⟩

end Sys2Proof.Machine
end

