-- ==== Sys2Proof/Laws/Macros.lean ====
section
/-! SUPPORT. Runs of one command: the warm-up from a load to RUN, NOPs that hold, NEXTs that generate; and the
keystream bits they pass. With them, one lemma for each macro-operation that says what it does where it raises
nothing. -/

namespace Sys2Proof.Machine

theorem initClocks_eq : Config.initClocks = 256 := by unfold Config.initClocks; rfl

/-! ## NOPs -/

/-- `k` NOPs inside the warm-up are `k` counted init-clocks (R57). -/
theorem nops_warm (k : Nat) : ∀ s : State, s.phase = .init → s.cnt.toNat + k ≤ 255 →
    (presentNop^[k] s).phase = .init ∧ (presentNop^[k] s).cnt.toNat = s.cnt.toNat + k
      ∧ ((presentNop^[k] s).L, (presentNop^[k] s).N) = iclk^[k] (s.L, s.N) := by
  induction k with
  | zero => intro s hp _; exact ⟨hp, rfl, rfl⟩
  | succ k ih =>
    intro s hp hc
    have hw := presentNop_of_init hp
    have hcnt : (s.cnt + 1#9).toNat = s.cnt.toNat + 1 := by rw [BitVec.toNat_add]; simp; omega
    have hne : s.cnt + 1#9 ≠ 256#9 := fun h => by
      have := congrArg BitVec.toNat h
      rw [hcnt] at this
      simp at this
      omega
    have hp' : (presentNop s).phase = .init := by rw [hw]; simp [warmUp, hne, hp]
    have hc' : (presentNop s).cnt.toNat = s.cnt.toNat + 1 := by rw [hw]; simpa [warmUp] using hcnt
    have hr' : ((presentNop s).L, (presentNop s).N) = iclk (s.L, s.N) := by rw [hw]; rfl
    obtain ⟨h1, h2, h3⟩ := ih (presentNop s) hp' (by omega)
    refine ⟨h1, ?_, ?_⟩
    · rw [Function.iterate_succ_apply, h2, hc']; omega
    · rw [Function.iterate_succ_apply, h3, hr', Function.iterate_succ_apply]

/-- The NOP that ends the warm-up (R57). -/
theorem nop_last {s : State} (hp : s.phase = .init) (hc : s.cnt.toNat = 255) :
    (presentNop s).phase = .run ∧ (presentNop s).cnt = 256
      ∧ ((presentNop s).L, (presentNop s).N) = iclk (s.L, s.N) := by
  have hc' : s.cnt = 255#9 := BitVec.eq_of_toNat_eq hc
  rw [presentNop_of_init hp]
  simp [warmUp, hc']

/-- NOPs in IDLE and RUN hold the core (R54). -/
theorem nops_hold (k : Nat) : ∀ s : State, s.phase ≠ .init →
    (presentNop^[k] s).phase = s.phase ∧ (presentNop^[k] s).cnt = s.cnt ∧ (presentNop^[k] s).L = s.L
      ∧ (presentNop^[k] s).N = s.N := by
  induction k with
  | zero => intro s _; exact ⟨rfl, rfl, rfl, rfl⟩
  | succ k ih =>
    intro s hp
    have h := ih (presentNop s) (by rw [presentNop_of_ne hp]; exact hp)
    rw [Function.iterate_succ_apply]
    rw [presentNop_of_ne hp] at h ⊢
    exact h

/-- From a count within the warm-up, enough NOPs to complete it and any number more end in RUN (R52, R57). -/
theorem nops_through {s : State} (hp : s.phase = .init) (hc : s.cnt.toNat ≤ 255) (k : Nat) :
    let t := presentNop^[Config.initClocks - s.cnt.toNat + k] s
    t.phase = .run ∧ t.cnt = 256 ∧ (t.L, t.N) = iclk^[Config.initClocks - s.cnt.toNat] (s.L, s.N) := by
  obtain ⟨h1, h2, h3⟩ := nops_warm (255 - s.cnt.toNat) s hp (by omega)
  obtain ⟨g1, g2, g3⟩ := nop_last h1 (by omega)
  rw [← Function.iterate_succ_apply' presentNop] at g1 g2 g3
  have e : Config.initClocks - s.cnt.toNat = (255 - s.cnt.toNat).succ := by rw [initClocks_eq]; omega
  obtain ⟨f1, f2, f3, f4⟩ := nops_hold k (presentNop^[Config.initClocks - s.cnt.toNat] s) (by rw [e, g1]; decide)
  rw [← Function.iterate_add_apply, Nat.add_comm] at f1 f2 f3 f4
  refine ⟨f1.trans (by rw [e, g1]), f2.trans (by rw [e, g2]), ?_⟩
  rw [f3, f4, e, g3, h3, Function.iterate_succ_apply']

/-- What repeated NOPs never touch. -/
theorem nops_untouched (k : Nat) (s : State) :
    (presentNop^[k] s).draws = s.draws ∧ (presentNop^[k] s).inputs = s.inputs
      ∧ (presentNop^[k] s).results = s.results ∧ (presentNop^[k] s).wire = s.wire := by
  induction k generalizing s with
  | zero => exact ⟨rfl, rfl, rfl, rfl⟩
  | succ k ih =>
    rw [Function.iterate_succ_apply]
    simpa using ih (presentNop s)

/-- Each of repeated NOPs adds one observation, answered OK (R54, R57). -/
theorem nops_trace (k : Nat) : ∀ s : State, ∃ tr, (presentNop^[k] s).trace = tr ++ s.trace ∧ tr.length = k
    ∧ ∀ a ∈ tr, a.resp = .ok := by
  induction k with
  | zero => exact fun s => ⟨[], rfl, rfl, by simp⟩
  | succ k ih =>
    intro s
    obtain ⟨tr, h1, h2, h3⟩ := ih (presentNop s)
    obtain ⟨a, ha, hr⟩ : ∃ a, (presentNop s).trace = a :: s.trace ∧ a.resp = .ok :=
      unlessInit_induction (P := fun t => ∃ a, t.trace = a :: s.trace ∧ a.resp = .ok)
        (fun _ => ⟨_, rfl, rfl⟩) fun _ => ⟨_, rfl, rfl⟩
    refine ⟨tr ++ [a], ?_, by simp [h2], ?_⟩
    · rw [Function.iterate_succ_apply, h1, ha, List.append_assoc]
      rfl
    · intro b hb
      rcases List.mem_append.1 hb with hb | hb
      · exact h3 b hb
      · rw [List.mem_singleton.1 hb]; exact hr

/-! ## NEXTs -/

/-- `k` NEXTs in RUN are `k` generation-clocks (R50, R58). -/
theorem nexts_run (k : Nat) : ∀ s : State, s.phase = .run →
    (presentNext^[k] s).phase = .run ∧ (presentNext^[k] s).cnt = s.cnt
      ∧ ((presentNext^[k] s).L, (presentNext^[k] s).N) = gclk^[k] (s.L, s.N) := by
  induction k with
  | zero => intro s hp; exact ⟨hp, rfl, rfl⟩
  | succ k ih =>
    intro s hp
    have h := ih (presentNext s) (by rw [presentNext_of_run hp]; exact hp)
    rw [Function.iterate_succ_apply, Function.iterate_succ_apply]
    rw [presentNext_of_run hp] at h ⊢
    exact h

/-- Each of repeated NEXTs in RUN adds one observation, answered OK, that took the next bit (R58, R97). -/
theorem nexts_trace (k : Nat) : ∀ s : State, s.phase = .run → ∃ tr, (presentNext^[k] s).trace = tr ++ s.trace
    ∧ tr.length = k ∧ (∀ a ∈ tr, a.resp = .ok) ∧ tr.reverse.filterMap Sample.taken = streamBits k s := by
  induction k with
  | zero => exact fun s _ => ⟨[], rfl, rfl, by simp, rfl⟩
  | succ k ih =>
    intro s hp
    have hn := presentNext_of_run hp
    obtain ⟨tr, h1, h2, h3, h4⟩ := ih (presentNext s) (by rw [hn]; exact hp)
    obtain ⟨a, ha, hr, ht⟩ : ∃ a, (presentNext s).trace = a :: s.trace ∧ a.resp = .ok
        ∧ a.taken = some (zOut s) := by
      rw [hn, zOut, if_pos hp]
      exact ⟨_, rfl, rfl, rfl⟩
    refine ⟨tr ++ [a], ?_, by simp [h2], ?_, ?_⟩
    · rw [Function.iterate_succ_apply, h1, ha, List.append_assoc]
      rfl
    · intro b hb
      rcases List.mem_append.1 hb with hb | hb
      · exact h3 b hb
      · rw [List.mem_singleton.1 hb]; exact hr
    · rw [List.reverse_append, List.filterMap_append, h4, streamBits]
      simp [ht]

/-- What repeated NEXTs never touch. -/
theorem nexts_untouched (k : Nat) (s : State) :
    (presentNext^[k] s).draws = s.draws ∧ (presentNext^[k] s).inputs = s.inputs
      ∧ (presentNext^[k] s).results = s.results ∧ (presentNext^[k] s).wire = s.wire := by
  induction k generalizing s with
  | zero => exact ⟨rfl, rfl, rfl, rfl⟩
  | succ k ih =>
    rw [Function.iterate_succ_apply]
    simpa using ih (presentNext s)

theorem zOut_of_run {s : State} (h : s.phase = .run) : zOut s = z s.L s.N := if_pos h

/-- The bits successive NEXTs take in RUN are the filter bits of successive generation-clocks (R58). -/
theorem streamBits_run (n : Nat) : ∀ s : State, s.phase = .run →
    streamBits n s = (List.range n).map (keystreamBit (s.L, s.N)) := by
  induction n with
  | zero => intro s _; rfl
  | succ n ih =>
    intro s hp
    have hn := presentNext_of_run hp
    rw [streamBits, ih (presentNext s) (by rw [hn]; exact hp), zOut_of_run hp, List.range_succ_eq_map,
      List.map_cons, List.map_map]
    refine congrArg₂ List.cons rfl (List.map_congr_left fun k _ => ?_)
    simp [keystreamBit, hn, Function.iterate_succ_apply]

theorem streamBits_length (n : Nat) (s : State) : (streamBits n s).length = n := by
  induction n generalizing s with
  | zero => rfl
  | succ n ih => simp [streamBits, ih]

/-- Successive requests continue the stream (R58). -/
theorem streamBits_add (a b : Nat) (s : State) :
    streamBits (a + b) s = streamBits a s ++ streamBits b (presentNext^[a] s) := by
  induction a generalizing s with
  | zero => simp [streamBits]
  | succ a ih =>
    rw [Nat.succ_add, streamBits, streamBits, ih, Function.iterate_succ_apply]
    rfl

/-! ## The macro-operations -/

theorem exec_initialise (K V : List Byte) (s : State) :
    exec (.initialise K V) s = .next (deliver (initialiseOp K V s).2 (initialiseOp K V s).1) := rfl

theorem exec_wait (s : State) : exec .wait s = .next (deliver .done (waitEdges s)) := rfl

theorem exec_nextBit (s : State) : exec .nextBit s = .next (deliver (nextBitOp s).2 (nextBitOp s).1) := rfl

theorem exec_nextBytes (n : Nat) (o : Option Nat) (s : State) :
    exec (.nextBytes n o) s = .next (deliver (nextBytesOp n o s).2 (nextBytesOp n o s).1) := rfl

theorem exec_process (K V B : List Byte) (o : Option Nat) (s : State) :
    exec (.process K V B o) s = .next (deliver (processOp K V B o s).2 (processOp K V B o s).1) := rfl

/-- Two states with the same nine fields are one state. -/
theorem state_ext {s t : State} (hL : s.L = t.L) (hN : s.N = t.N) (hp : s.phase = t.phase) (hc : s.cnt = t.cnt)
    (hd : s.draws = t.draws) (hi : s.inputs = t.inputs) (ht : s.trace = t.trace) (hr : s.results = t.results)
    (hw : s.wire = t.wire) : s = t := by
  cases s
  cases t
  simp_all

/-- WAIT from a count within the warm-up completes it (R57, R61). -/
theorem waitEdges_of_init {s : State} (hp : s.phase = .init) (hc : s.cnt.toNat ≤ 255) :
    ∃ tr, waitEdges s = { s with
        L := (iclk^[Config.initClocks - s.cnt.toNat] (s.L, s.N)).1
        N := (iclk^[Config.initClocks - s.cnt.toNat] (s.L, s.N)).2
        phase := .run, cnt := 256, trace := tr ++ s.trace }
      ∧ tr.length = 256 ∧ ∀ a ∈ tr, a.resp = .ok := by
  have e : Config.initClocks - s.cnt.toNat + s.cnt.toNat = Config.initClocks := by rw [initClocks_eq]; omega
  have h := nops_through hp hc s.cnt.toNat
  rw [e] at h
  obtain ⟨h1, h2, h3⟩ := h
  obtain ⟨tr, t1, t2, t3⟩ := nops_trace Config.initClocks s
  obtain ⟨u1, u2, u3, u4⟩ := nops_untouched Config.initClocks s
  rw [waitEdges]
  generalize presentNop^[Config.initClocks] s = t at *
  rw [← h3]
  exact ⟨tr, state_ext rfl rfl h1 h2 u1 u2 t1 u3 u4, t2.trans initClocks_eq, t3⟩

/-- INITIALIZE with the right lengths is an accepted LOAD and WAIT (R61). -/
theorem initialiseOp_accepted {s : State} {K V : List Byte} (hp : s.phase ≠ .init) (hk : K.length = 16)
    (hv : V.length = 12) :
    initialiseOp K V s = (waitEdges (observed .ok none (loadCore (keyBus K) (ivBus V) s)), .done) := by
  have ek : lenField K.length = 16 := by rw [hk]; rfl
  have ev : lenField V.length = 12 := by rw [hv]; rfl
  have er : respAt s (initialiseVector K V) = .ok := by
    simp [respAt, initialiseVector, loadVector, hp, ek, ev]
  unfold initialiseOp
  simp only [er, ek, ev, presentLoad_accepted hp]
  rfl

/-- The state INITIALIZE leaves: the canonical state of the key and IV, in RUN (R17, R61). -/
theorem initialiseOp_state {s : State} {K V : List Byte} (hp : s.phase ≠ .init) (hk : K.length = 16)
    (hv : V.length = 12) :
    ∃ tr, (initialiseOp K V s).1 = { s with
        L := (canonical (keyBus K) (ivBus V)).1, N := (canonical (keyBus K) (ivBus V)).2
        phase := .run, cnt := 256, trace := tr ++ s.trace }
      ∧ tr.length = 257 ∧ ∀ a ∈ tr, a.resp = .ok := by
  obtain ⟨tr, h1, h2, h3⟩ :=
    waitEdges_of_init (s := observed .ok none (loadCore (keyBus K) (ivBus V) s)) rfl (by simp)
  refine ⟨tr ++ [{ resp := .ok, taken := none, ready := false, busy := true, zOut := false }], ?_, by simp [h2], ?_⟩
  · rw [initialiseOp_accepted hp hk hv, h1, List.append_assoc]
    rfl
  · intro a ha
    rcases List.mem_append.1 ha with hb | hb
    · exact h3 a hb
    · rw [List.mem_singleton.1 hb]

/-- INITIALIZE with a wrong key length is a refused LOAD and nothing more (R61, R76). -/
theorem initialiseOp_keyLen {s : State} {K : List Byte} (V : List Byte) (hp : s.phase ≠ .init)
    (hk : K.length ≠ 16) : initialiseOp K V s = (refuseCommand .eKeyLen s, .error .invalidKeyLength) := by
  have hk' : lenField K.length ≠ 16 := fun h => hk ((lenField_eq (by decide)).1 h)
  have er : respAt s (initialiseVector K V) = .eKeyLen := by
    unfold respAt initialiseVector loadVector
    rw [iwRst_packVector, iwCmd_packVector, iwKlen_packVector, if_neg (by decide), if_neg (by simp [hp]), if_neg hp,
      if_neg (by decide), if_pos ⟨rfl, hk'⟩]
  unfold initialiseOp
  simp only [er, if_true, presentLoad_keyLen hp hk']

/-- INITIALIZE with the right key length and a wrong IV length is a refused LOAD and nothing more (R61, R76). -/
theorem initialiseOp_ivLen {s : State} {K V : List Byte} (hp : s.phase ≠ .init) (hk : K.length = 16)
    (hv : V.length ≠ 12) : initialiseOp K V s = (refuseCommand .eIvLen s, .error .invalidIvLength) := by
  have ek : lenField K.length = 16 := by rw [hk]; rfl
  have hv' : lenField V.length ≠ 12 := fun h => hv ((lenField_eq (by decide)).1 h)
  have er : respAt s (initialiseVector K V) = .eIvLen := by
    unfold respAt initialiseVector loadVector
    rw [iwRst_packVector, iwCmd_packVector, iwKlen_packVector, iwIvlen_packVector, if_neg (by decide),
      if_neg (by simp [hp]), if_neg hp, if_neg (by decide), if_neg (by simp [ek]), if_pos ⟨rfl, hv'⟩]
  unfold initialiseOp
  simp only [er, ek, presentLoad_ivLen hp hv', if_true]
  rfl

/-- NEXT_BIT and NEXT_BYTES without a keystream: NotReady and no step (R62, R63). -/
theorem nextBitOp_notReady {s : State} (hp : s.phase ≠ .run) : nextBitOp s = (s, .error .notReady) :=
  if_neg (by simp [ready, hp])

theorem nextBytesOp_notReady {s : State} (n : Nat) (o : Option Nat) (hp : s.phase ≠ .run) :
    nextBytesOp n o s = (s, .error .notReady) := if_pos (by simp [ready, hp])

/-- NEXT_BYTES with a wrong output size: BufferLengthMismatch and no step (R63). -/
theorem nextBytesOp_bufLen {s : State} {n k : Nat} (hp : s.phase = .run) (hk : k ≠ n) :
    nextBytesOp n (some k) s = (s, .error .bufferLengthMismatch) := by
  unfold nextBytesOp
  rw [if_neg (by simp [ready, hp]), if_pos (by simp [hk])]

/-- PROCESS: its three checks, in order, each without a step (R64, R77). -/
theorem processOp_keyLen {K : List Byte} (V B : List Byte) (o : Option Nat) (s : State) (hk : K.length ≠ 16) :
    processOp K V B o s = (s, .error .invalidKeyLength) := if_pos hk

theorem processOp_ivLen {K V : List Byte} (B : List Byte) (o : Option Nat) (s : State) (hk : K.length = 16)
    (hv : V.length ≠ 12) : processOp K V B o s = (s, .error .invalidIvLength) := by
  unfold processOp
  rw [if_neg (not_not_intro hk), if_pos hv]

theorem processOp_bufLen {K V B : List Byte} {k : Nat} (s : State) (hk : K.length = 16) (hv : V.length = 12)
    (ho : k ≠ B.length) : processOp K V B (some k) s = (s, .error .bufferLengthMismatch) := by
  unfold processOp
  rw [if_neg (not_not_intro hk), if_neg (not_not_intro hv), if_pos (by simp [ho])]

/-- `k` NEXTs in RUN, as one state (R50, R58, R97). -/
theorem nexts_state {s : State} (k : Nat) (hp : s.phase = .run) :
    ∃ tr, presentNext^[k] s = { s with
        L := (gclk^[k] (s.L, s.N)).1, N := (gclk^[k] (s.L, s.N)).2, trace := tr ++ s.trace }
      ∧ tr.length = k ∧ (∀ a ∈ tr, a.resp = .ok) ∧ tr.reverse.filterMap Sample.taken = streamBits k s := by
  obtain ⟨tr, t1, t2, t3, t4⟩ := nexts_trace k s hp
  obtain ⟨u1, u2, u3, u4⟩ := nexts_untouched k s
  obtain ⟨h1, h2, h3⟩ := nexts_run k s hp
  generalize presentNext^[k] s = t at *
  rw [← h3]
  exact ⟨tr, state_ext rfl rfl (h1.trans hp.symm) h2 u1 u2 t1 u3 u4, t2, t3, t4⟩

/-- NEXT_BYTES in RUN, with no output size or the right one (R63). -/
theorem nextBytesOp_of_run {s : State} {n : Nat} {o : Option Nat} (hp : s.phase = .run) (ho : o = none ∨ o = some n) :
    nextBytesOp n o s =
      (presentNext^[8 * n] s, .bytes (pack ((List.range (8 * n)).map (keystreamBit (s.L, s.N))))) := by
  unfold nextBytesOp
  rw [if_neg (by simp [ready, hp]), if_neg (by rcases ho with rfl | rfl <;> simp), streamBits_run _ s hp]

/-- PROCESS with the right lengths: INITIALIZE, the NEXTs, and the message xor the keystream (R64). -/
theorem processOp_accepted {s : State} {K V B : List Byte} {o : Option Nat} (hp : s.phase ≠ .init)
    (hk : K.length = 16) (hv : V.length = 12) (ho : o = none ∨ o = some B.length) :
    processOp K V B o s = (presentNext^[8 * B.length] (initialiseOp K V s).1,
      .bytes (xorBytes B (keystreamBytes (keyBus K) (ivBus V) B.length))) := by
  unfold processOp
  rw [if_neg (not_not_intro hk), if_neg (not_not_intro hv), if_neg (by rcases ho with rfl | rfl <;> simp)]
  obtain ⟨tr, h, -⟩ := initialiseOp_state hp hk hv
  have hr : (initialiseOp K V s).1.phase = .run := by rw [h]
  have hc : ((initialiseOp K V s).1.L, (initialiseOp K V s).1.N) = canonical (keyBus K) (ivBus V) := by rw [h]
  rw [nextBytesOp_of_run hr (.inl rfl), hc]
  rfl

end Sys2Proof.Machine
end

