-- ==== Sys2Proof/Laws/Keeps.lean ====
section
/-! SUPPORT. The induction over a step, packaged once: a property that every edge keeps, and that does not look at the
host's requests or results, is kept by every step, the macro-operations' long ones too. -/

namespace Sys2Proof.Machine

theorem edge_presentNop (s : State) : Edge (commandVector .nop) s (presentNop s) := by
  by_cases h : s.phase = .init
  · rw [presentNop_of_init h]
    exact .warm (w := commandVector .nop) rfl h
  · rw [presentNop_of_ne h]
    exact .nop (w := commandVector .nop) rfl h (iwCmd_packVector ..)

theorem edge_presentNext (s : State) : Edge (commandVector .next) s (presentNext s) := by
  cases h : s.phase
  · rw [presentNext_of_idle h]
    exact .nextIdle (w := commandVector .next) rfl h (iwCmd_packVector ..)
  · rw [presentNext_of_init h]
    exact .warm (w := commandVector .next) rfl h
  · rw [presentNext_of_run h]
    exact .next (w := commandVector .next) rfl h (iwCmd_packVector ..)

theorem edge_presentLoad (kl vl : LenField) (k : KeyBus) (v : IvBus) (s : State) :
    Edge (loadVector kl vl k v) s (presentLoad kl vl k v s) := by
  by_cases hp : s.phase = .init
  · rw [presentLoad_of_init hp]
    simpa [loadVector] using Edge.warm (w := loadVector kl vl k v) (by simp [loadVector]) hp
  · obtain ⟨t, h, e⟩ := exec_decode_edge (loadVector kl vl k v) s
    rw [decode_of_not_init (by simp [loadVector]) hp] at h
    simp only [loadVector, iwCmd_packVector, iwKlen_packVector, iwIvlen_packVector, iwKey_packVector,
      iwIv_packVector] at h
    cases h
    exact e

section Keeps

variable {P : State → Prop} (edge : ∀ w s t, P s → Edge w s t → P t)

include edge

theorem nops_keep (k : Nat) : ∀ s, P s → P (presentNop^[k] s) := by
  induction k with
  | zero => exact fun _ h => h
  | succ k ih => exact fun s h => ih _ (edge _ _ _ h (edge_presentNop s))

theorem waitEdges_keeps {s : State} (h : P s) : P (waitEdges s) := by
  unfold waitEdges
  exact nops_keep edge Config.initClocks s h

theorem nexts_keep (k : Nat) : ∀ s, P s → P (presentNext^[k] s) := by
  induction k with
  | zero => exact fun _ h => h
  | succ k ih => exact fun s h => ih _ (edge _ _ _ h (edge_presentNext s))

theorem initialiseOp_keeps (K V : List Byte) {s : State} (h : P s) : P (initialiseOp K V s).1 := by
  have ht := edge _ _ _ h (edge_presentLoad (lenField K.length) (lenField V.length) (keyBus K) (ivBus V) s)
  unfold initialiseOp
  dsimp only
  split
  · exact ht
  · split
    · exact ht
    · exact waitEdges_keeps edge ht

theorem nextBytesOp_keeps (n : Nat) (o : Option Nat) {s : State} (h : P s) : P (nextBytesOp n o s).1 := by
  unfold nextBytesOp
  split
  · exact h
  · split
    · exact h
    · exact nexts_keep edge _ _ h

theorem nextBitOp_keeps {s : State} (h : P s) : P (nextBitOp s).1 := by
  unfold nextBitOp
  split
  · exact edge _ _ _ h (edge_presentNext s)
  · exact h

theorem processOp_keeps (K V B : List Byte) (o : Option Nat) {s : State} (h : P s) : P (processOp K V B o s).1 := by
  have hn := nextBytesOp_keeps edge B.length none (initialiseOp_keeps edge K V h)
  unfold processOp
  split
  · exact h
  · split
    · exact h
    · split
      · exact h
      · generalize nextBytesOp B.length none (initialiseOp K V s).1 = p at hn
        obtain ⟨t, r⟩ := p
        cases r <;> exact hn

/-- What every edge keeps, every step keeps. -/
theorem step_keeps (deliver : ∀ r s, P s → P (deliver r s)) (ahead : ∀ q s, P s → P (withInputs q s)) {s t : State}
    (hs : P s) (h : step s = .next t) : P t := by
  unfold step at h
  cases hq : s.inputs with
  | nil =>
    rw [hq] at h
    cases h
  | cons q rest =>
    rw [hq] at h
    have hw := ahead rest s hs
    cases q with
    | vector w => exact edge w _ _ hw (edge_of_exec_decode (s := withInputs rest s) h)
    | call m =>
      cases m with
      | initialise K V =>
        rw [← Host.Outcome.next.inj ((exec_initialise K V _).symm.trans h)]
        exact deliver _ _ (initialiseOp_keeps edge K V hw)
      | wait =>
        rw [← Host.Outcome.next.inj ((exec_wait _).symm.trans h)]
        exact deliver _ _ (waitEdges_keeps edge hw)
      | nextBit =>
        rw [← Host.Outcome.next.inj ((exec_nextBit _).symm.trans h)]
        exact deliver _ _ (nextBitOp_keeps edge hw)
      | nextBytes n o =>
        rw [← Host.Outcome.next.inj ((exec_nextBytes n o _).symm.trans h)]
        exact deliver _ _ (nextBytesOp_keeps edge n o hw)
      | process K V B o =>
        rw [← Host.Outcome.next.inj ((exec_process K V B o _).symm.trans h)]
        exact deliver _ _ (processOp_keeps edge K V B o hw)

end Keeps

end Sys2Proof.Machine
end

