-- ==== Sys2Proof/Laws/PerInstr.lean ====
section
/-! SUPPORT. A statement about every instruction as syntax, one lemma per constructor: the first input vector an
instruction presents has the opcode bits its row of spec/opcode_table.json gives. -/

namespace Sys2Proof.Laws.TableMatch

/-- Under its row's mask, an instruction's first input vector is its row's match. -/
def Statement (i : Instr) : Prop := ∀ w, firstVector i = some w → w &&& rowMask i = rowMatch i

/-- A vector packed with command `c` and `rst = 0` has `c`'s code in `IW[2:1]`, under the mask of `IW[2:0]`. -/
theorem packed_seven (c : Cmd) (kl vl : LenField) (k : KeyBus) (v : IvBus) :
    packVector false c kl vl k v &&& 0x7 = (cmdBits c ++ BitVec.ofBool false).setWidth 237 :=
  packVector_and_seven false c kl vl k v

theorem reset : Statement .reset := by
  rintro w ⟨⟩
  rfl

theorem nop : Statement .nop := by
  rintro w ⟨⟩
  rfl

theorem load (klen ivlen : LenField) (key : KeyBus) (iv : IvBus) : Statement (.load klen ivlen key iv) := by
  rintro w ⟨⟩
  exact packed_seven .load klen ivlen key iv

theorem next : Statement .next := by
  rintro w ⟨⟩
  rfl

theorem rsvd : Statement .rsvd := by
  rintro w ⟨⟩
  rfl

theorem iclk (cmd : Cmd) : Statement (.iclk cmd) := by
  rintro w ⟨⟩
  cases cmd <;> rfl

theorem gclk : Statement .gclk := by
  rintro w ⟨⟩
  rfl

theorem initialise (K V : List Byte) : Statement (.initialise K V) := by
  rintro w ⟨⟩
  exact packed_seven .load _ _ _ _

theorem wait : Statement .wait := by
  intro w h
  have h' : w = commandVector .nop := by
    unfold firstVector expansion waitVectors Config.initClocks at h
    rw [List.head?_replicate, if_neg (by decide)] at h
    exact (Option.some.inj h).symm
  rw [h']
  exact packed_seven .nop 0 0 0 0

theorem nextBit : Statement .nextBit := by
  rintro w ⟨⟩
  rfl

theorem nextBytes (n : Nat) (outlen : Option Nat) : Statement (.nextBytes n outlen) := by
  intro w h
  cases n with
  | zero => simp [firstVector, expansion] at h
  | succ n =>
    have h' : w = commandVector .next := by
      simpa [firstVector, expansion, Nat.mul_succ, List.replicate_succ] using h.symm
    rw [h']
    exact packed_seven .next 0 0 0 0

theorem process (K V B : List Byte) (outlen : Option Nat) : Statement (.process K V B outlen) := by
  rintro w ⟨⟩
  exact packed_seven .load _ _ _ _

theorem shift (r : RegName) (b : Bool) : Statement (.shift r b) := by
  rintro w ⟨⟩

theorem fl : Statement .fl := by
  rintro w ⟨⟩

theorem fn : Statement .fn := by
  rintro w ⟨⟩

theorem z : Statement .z := by
  rintro w ⟨⟩

end Sys2Proof.Laws.TableMatch
end

