-- ==== Sys2Proof/Tests/Slice0.lean ====
section
/-! SUPPORT. Tests: expected values from spec/95_test_vectors.md, the worked examples of the rules, or hand
calculation from them. First the well-formedness checks, then decoding, the networks, one step per instruction, and
the witnesses of the statements' hypotheses. -/

namespace Sys2Proof.Tests

open Sys2Proof.Machine

/-! ## Helpers -/

/-- A state in phase `p` with the given registers and count. -/
def core (p : Phase) (L N : Register) (c : Count) : State :=
  { State.reset with L := L, N := N, phase := p, cnt := c }

/-- IDLE with nothing in the registers. -/
def idleCore : State := core .idle 0 0 0

/-- After init-clock 3 of the all-zero key and IV (95_test_vectors.md section 1.1); `c` clocks counted. -/
def initCore (c : Count) : State := core .init 0xFFFFFFFFE00000000000000000000000 0 c

/-- After the warm-up of the all-zero key and IV (95_test_vectors.md section 1.1). -/
def runCore : State := core .run 0xBB5172ACD49E6D188A8B7554E25774CD 0x3D5AC48773554E1ED5DF5164A0EEDBB9 256

/-- The counting key and IV of 95_test_vectors.md section 1.2. -/
def countingKey : KeyBus := 0x0F0E0D0C0B0A09080706050403020100
def countingIv : IvBus := 0x0B0A09080706050403020100

/-- A key, an IV and other strings by length, all bytes 0. -/
def zeros (n : Nat) : List Byte := List.replicate n 0

/-- What a table of 95_test_vectors.md shows of a step: `resp`, the phase and the count after it. -/
def seen (o : Host.Outcome State Fault Refusal) : Option (Option Resp × Phase × Nat) :=
  match o with
  | .next t => some (t.trace.head?.map Sample.resp, t.phase, t.cnt.toNat)
  | _ => none

/-- The registers after a step. -/
def regs (o : Host.Outcome State Fault Refusal) : Option (Register × Register) :=
  match o with
  | .next t => some (t.L, t.N)
  | _ => none

/-- The result a macro-operation handed back, and how many edges it took. -/
def said (o : Host.Outcome State Fault Refusal) : Option (Option Result × Nat) :=
  match o with
  | .next t => some (t.results.head?, t.trace.length)
  | _ => none

/-! ## Well-formedness: an ill-formed term for each check (R39, R40, R41) -/

theorem test_wf_gclk_is_not_selected : Instr.atPins .run .gclk = false := by decide
theorem test_wf_nop_not_selected_in_init : Instr.atPins .init .nop = false := by decide
theorem test_wf_load_not_selected_in_init : Instr.atPins .init (.load 16 12 0 0) = false := by decide
theorem test_wf_iclk_not_selected_in_run : Instr.atPins .run (.iclk .nop) = false := by decide
theorem test_wf_fl_is_neither : Instr.wellFormed .run .fl = false := by decide
theorem test_wf_wait_is_callable : Instr.wellFormed .run .wait = true := by decide
theorem test_wf_reset_in_every_phase : ∀ p ∈ [Phase.idle, .init, .run], Instr.wellFormed p .reset = true := by decide
theorem test_wf_statement_short_key : Statement.wellFormed (.load (zeros 15) (zeros 12) none none) = false := by decide
theorem test_wf_statement_short_iv : Statement.wellFormed (.load (zeros 16) (zeros 11) none none) = false := by decide
theorem test_wf_statement_klen_32 : Statement.wellFormed (.load (zeros 16) (zeros 12) (some 32) none) = false := by decide
theorem test_wf_statement_ivlen_32 : Statement.wellFormed (.load (zeros 16) (zeros 12) none (some 32)) = false := by decide
theorem test_wf_statement_boundary : Statement.wellFormed (.load (zeros 16) (zeros 12) (some 31) (some 0)) = true := by decide

/-! ## Decoding: words written out from R31, R32 and the programs of 95_test_vectors.md section 3 -/

theorem test_decode_reset : decode .idle 0b1 = .reset := by decide
theorem test_decode_reset_over_cmd : decode .init 0b111 = .reset := by decide
theorem test_decode_nop : decode .idle 0b000 = .nop := by decide
theorem test_decode_next : decode .run 0b100 = .next := by decide
theorem test_decode_rsvd : decode .run 0b110 = .rsvd := by decide
theorem test_decode_load_zero : decode .idle 0b0110010000010 = .load 16 12 0 0 := by decide
theorem test_decode_iclk_nop : decode .init 0b000 = .iclk .nop := by decide
theorem test_decode_iclk_load : decode .init 0xC82 = .iclk .load := by decide
theorem test_decode_iclk_next : decode .init 0b100 = .iclk .next := by decide
theorem test_decode_iclk_rsvd : decode .init 0b110 = .iclk .rsvd := by decide
theorem test_decode_load_counting :
    decode .idle 0x161412100E0C0A08060402001E1C1A18161412100E0C0A0806040200C82 =
      .load 16 12 countingKey countingIv := by decide
theorem test_decode_load_klen_15 :
    decode .idle 0x161412100E0C0A08060402001E1C1A18161412100E0C0A0806040200C7A =
      .load 15 12 countingKey countingIv := by decide
theorem test_decode_load_klen_17_ivlen_13 :
    decode .run 0x161412100E0C0A08060402001E1C1A18161412100E0C0A0806040200D8A =
      .load 17 13 countingKey countingIv := by decide
theorem test_decode_load_ivlen_11 :
    decode .run 0x161412100E0C0A08060402001E1C1A18161412100E0C0A0806040200B82 =
      .load 16 11 countingKey countingIv := by decide
/-- `key[0]` is `IW[13]`, `key[127]` is `IW[140]`, `iv[0]` is `IW[141]`, `iv[95]` is `IW[236]` (R31). -/
theorem test_decode_load_bus_ends :
    decode .idle (BitVec.ofNat 237 (2 + 2 ^ 13 + 2 ^ 140 + 2 ^ 141 + 2 ^ 236)) =
      .load 0 0 (BitVec.ofNat 128 (1 + 2 ^ 127)) (BitVec.ofNat 96 (1 + 2 ^ 95)) := by decide +kernel
/-- The micro-operations' and macro-operations' rows show the vector of the edge that performs them. -/
theorem test_encode_gclk : encode .gclk = some 0b100 := by decide
theorem test_expansion_initialise : (expansion (.initialise (zeros 16) (zeros 12))).head? = some 0xC82 := by
  decide +kernel
theorem test_expansion_nextBit : expansion .nextBit = [0b100] := by decide
theorem test_functions_have_no_encoding : [Instr.shift .L true, .fl, .fn, .z].map encode = [none, none, none, none] := by
  decide
theorem test_table_word_next : decodeTableWord 240 0x4 = some .next := by decide
theorem test_table_word_too_wide : decodeTableWord 240 (2 ^ 237) = none := by decide

/-- The first three statements of a program, and a pseudo-instruction (R40, R41). -/
theorem test_assembleAll :
    assembleAll [.reset, .nop (some 2), .next none, .pseudo .wait] =
      .ok [.vector 0x1, .vector 0x0, .vector 0x0, .vector 0x4, .call .wait] := by decide
/-- The LOADs of program P2 with both lengths left out and with one (95_test_vectors.md section 3.2). -/
theorem test_assemble_load_counting :
    [(none, none), (some 15, none), (none, some 11)].map (fun l => assemble (.load ((List.range 16).map (BitVec.ofNat 8))
        ((List.range 12).map (BitVec.ofNat 8)) l.1 l.2)) =
      [.ok [.vector 0x161412100E0C0A08060402001E1C1A18161412100E0C0A0806040200C82],
        .ok [.vector 0x161412100E0C0A08060402001E1C1A18161412100E0C0A0806040200C7A],
        .ok [.vector 0x161412100E0C0A08060402001E1C1A18161412100E0C0A0806040200B82]] := by decide +kernel
/-- `klen = 48` is not taken modulo 32, and a 15-byte key is not padded (R23, R40; log entry 10). -/
theorem test_assemble_illegal :
    [assemble (.load (zeros 16) (zeros 12) (some 48) none), assemble (.load (zeros 15) (zeros 12) none none),
      assembleAll [.reset, .load (zeros 16) (zeros 13) none none, .rsvd]] =
      [.error .illegalLoad, .error .illegalLoad, .error .illegalLoad] := by decide

/-! ## Bytes (95_test_vectors.md section 2.1) -/

theorem test_expand_01 : expand [0x01] = [true, false, false, false, false, false, false, false] := by decide
theorem test_expand_80 : expand [0x80] = [false, false, false, false, false, false, false, true] := by decide
theorem test_key_last_byte_80 : keyBus (zeros 15 ++ [0x80]) = BitVec.ofNat 128 (2 ^ 127) := by decide +kernel
theorem test_iv_last_byte_80 : ivBus (zeros 11 ++ [0x80]) = BitVec.ofNat 96 (2 ^ 95) := by decide +kernel
theorem test_pack_9B : pack [true, true, false, true, true, false, false, true] = [0x9B] := by decide
theorem test_length_saturates : (lenField 40, lenField 31, lenField 30) = (31, 31, 30) := by decide

/-! ## Networks and clocks (95_test_vectors.md sections 2.2 to 2.4) -/

theorem test_shift_drops_bit_0 : shift 0x80000000000000000000000000000001 false = 0x40000000000000000000000000000000 := by
  decide
/-- State A. -/
theorem test_state_A :
    let L : Register := 0xFEDCBA98765432100123456789ABCDEF
    let N : Register := 0x00112233445566778899AABBCCDDEEFF
    (fL L, fN L N, z L N) = (true, true, true)
      ∧ iclk (L, N) = (0x7F6E5D4C3B2A19080091A2B3C4D5E6F7, 0x00089119A22AB33BC44CD55DE66EF77F)
      ∧ gclk (L, N) = (0xFF6E5D4C3B2A19080091A2B3C4D5E6F7, 0x80089119A22AB33BC44CD55DE66EF77F) := by decide
/-- State B. -/
theorem test_state_B :
    let L : Register := 0xA5A5A5A5A5A5A5A55A5A5A5A5A5A5A5A
    let N : Register := 0x3C3C3C3C3C3C3C3CC3C3C3C3C3C3C3C3
    (fL L, fN L N, z L N) = (false, true, true)
      ∧ iclk (L, N) = (0xD2D2D2D2D2D2D2D2AD2D2D2D2D2D2D2D, 0x1E1E1E1E1E1E1E1E61E1E1E1E1E1E1E1)
      ∧ gclk (L, N) = (0x52D2D2D2D2D2D2D2AD2D2D2D2D2D2D2D, 0x9E1E1E1E1E1E1E1E61E1E1E1E1E1E1E1) := by decide
/-- State C, where `z = 0` and the two clocks coincide. -/
theorem test_state_C :
    let L : Register := 0x0123456789ABCDEFFEDCBA9876543210
    let N : Register := 0x0F1E2D3C4B5A69788796A5B4C3D2E1F0
    (fL L, fN L N, z L N) = (true, true, false)
      ∧ iclk (L, N) = (0x8091A2B3C4D5E6F7FF6E5D4C3B2A1908, 0x878F169E25AD34BC43CB52DA61E970F8)
      ∧ gclk (L, N) = (0x8091A2B3C4D5E6F7FF6E5D4C3B2A1908, 0x878F169E25AD34BC43CB52DA61E970F8) := by decide
/-- The three-bit product and its cancellation. -/
theorem test_z_three_products :
    (z (BitVec.ofNat 128 (2 ^ 95)) (BitVec.ofNat 128 (2 ^ 12 + 2 ^ 95)),
      z (BitVec.ofNat 128 (2 ^ 8 + 2 ^ 95)) (BitVec.ofNat 128 (2 ^ 12 + 2 ^ 95)),
      z (BitVec.ofNat 128 (2 ^ 8 + 2 ^ 42 + 2 ^ 95)) (BitVec.ofNat 128 (2 ^ 12 + 2 ^ 95))) = (true, false, true) := by
  decide +kernel

/-! ## One step of each instruction (95_test_vectors.md sections 1, 2.5, 2.6, 2.8 and 3) -/

theorem test_reset_from_run : seen (exec .reset runCore) = some (some .ok, .idle, 0) := by decide
theorem test_reset_from_init : seen (exec .reset (initCore 100)) = some (some .ok, .idle, 0) := by decide
theorem test_nop_holds_run : regs (exec .nop runCore) = some (runCore.L, runCore.N) := by decide
theorem test_nop_ends_warm_up : seen (exec .nop (initCore 255)) = some (some .ok, .run, 256) := by decide
theorem test_load_counting :
    regs (exec (.load 16 12 countingKey countingIv) runCore) =
      some (0xFFFFFFFF0B0A09080706050403020100, 0x0F0E0D0C0B0A09080706050403020100) := by decide
/-- The refused rows of section 2.5. -/
theorem test_load_refused :
    [(15, 12), (17, 12), (0, 12), (31, 12), (16, 11), (16, 13), (16, 0), (15, 13), (12, 16)].map
        (fun l : LenField × LenField => seen (exec (.load l.1 l.2 countingKey countingIv) idleCore)) =
      [some (some .eKeyLen, .idle, 0), some (some .eKeyLen, .idle, 0), some (some .eKeyLen, .idle, 0),
        some (some .eKeyLen, .idle, 0), some (some .eIvLen, .idle, 0), some (some .eIvLen, .idle, 0),
        some (some .eIvLen, .idle, 0), some (some .eKeyLen, .idle, 0), some (some .eKeyLen, .idle, 0)] := by decide
/-- NEXT 1 of section 1.1. -/
theorem test_next_1 :
    regs (exec .next runCore) =
      some (0x5DA8B9566A4F368C4545BAAA712BBA66, 0x1EAD6243B9AAA70F6AEFA8B250776DDC) := by decide
theorem test_next_in_idle : seen (exec .next idleCore) = some (some .eNotReady, .idle, 0) := by decide
theorem test_rsvd_in_run : seen (exec .rsvd runCore) = some (some .eIllCmd, .run, 256) := by decide
theorem test_rsvd_in_init : seen (exec .rsvd (initCore 2)) = some (some .eBusy, .init, 3) := by decide
/-- Init-clock 4 of section 1.1. -/
theorem test_iclk_4 :
    regs (exec (.iclk .nop) (initCore 3)) =
      some (0x7FFFFFFFF00000000000000000000000, 0x80000000000000000000000000000000) := by decide
theorem test_iclk_254_stays : seen (exec (.iclk .next) (initCore 254)) = some (some .eBusy, .init, 255) := by decide
theorem test_gclk_1 :
    regs (exec .gclk runCore) =
      some (0x5DA8B9566A4F368C4545BAAA712BBA66, 0x1EAD6243B9AAA70F6AEFA8B250776DDC) := by decide
theorem test_initialise_15_13 :
    said (exec (.initialise (zeros 15) (zeros 13)) idleCore) = some (some (.error .invalidKeyLength), 1) := by
  decide +kernel
theorem test_initialise_16_11 :
    said (exec (.initialise (zeros 16) (zeros 11)) idleCore) = some (some (.error .invalidIvLength), 1) := by
  decide +kernel
/-- Init-clock 256 of section 1.1, and then 255 NOPs that hold. -/
theorem test_wait_ends_warm_up :
    regs (exec .wait (core .init 0x76A2E559A93CDA311516EAA9C4AEE99B 0x7AB5890EE6AA9C3DABBEA2C941DDB772 255)) =
      some (0xBB5172ACD49E6D188A8B7554E25774CD, 0x3D5AC48773554E1ED5DF5164A0EEDBB9) := by decide +kernel
theorem test_nextBit : said (exec .nextBit runCore) = some (some (.bit false), 1) := by decide
theorem test_nextBit_in_idle : said (exec .nextBit idleCore) = some (some (.error .notReady), 0) := by decide
/-- The first byte of section 1.1. -/
theorem test_nextBytes_1 : said (exec (.nextBytes 1 none) runCore) = some (some (.bytes [0xF0]), 8) := by
  decide +kernel
theorem test_nextBytes_outlen :
    said (exec (.nextBytes 4 (some 5)) runCore) = some (some (.error .bufferLengthMismatch), 0) := by decide
theorem test_process_outlen_23 :
    said (exec (.process (zeros 16) (zeros 12) (zeros 24) (some 23)) idleCore) =
      some (some (.error .bufferLengthMismatch), 0) := by decide
theorem test_process_key_first :
    said (exec (.process (zeros 17) (zeros 11) [] (some 1)) idleCore) = some (some (.error .invalidKeyLength), 0) := by
  decide
/-- The corner of R42: index 1 moves to index 0. -/
theorem test_shift_N : regs (exec (.shift .N false) (core .run 5 2 256)) = some (5, 1) := by decide
theorem test_shift_L :
    regs (exec (.shift .L true) (core .run 0xFFFFFFFF000000000000000000000000 7 256)) =
      some (0xFFFFFFFF800000000000000000000000, 7) := by decide
/-- All ones: 0, 1, 1 (section 2.3). -/
theorem test_functions_all_ones :
    let s := core .run (BitVec.allOnes 128) (BitVec.allOnes 128) 256
    [exec .fl s, exec .fn s, exec .z s] =
      [.next { s with wire := false }, .next { s with wire := true }, .next { s with wire := true }] := rfl
/-- Moore outputs: in INIT `z_out` is 0 even where `z(L, N) = 1` (section 2.6). -/
theorem test_outputs_in_init :
    (ready (initCore 3), busy (initCore 3), zOut (initCore 3), z (initCore 3).L (initCore 3).N) =
      (false, true, false, true) := by decide
/-- Steps 3 and 4 of program P2: what `resp` shows before the edge. -/
theorem test_respPort :
    (respPort { idleCore with inputs := [.vector 0x6] }, respPort { runCore with inputs := [.vector 0x4] },
      respPort { initCore 0 with inputs := [.vector 0xC82] }, respPort idleCore) =
      (some .eIllCmd, some .ok, some .eBusy, none) := by decide
/-- The step fetches the vector the host presents. -/
theorem test_step_fetches : seen (step (State.reset.withFetchWord 240 0xC82)) = some (some .ok, .init, 0) := by decide

/-! ## Witnesses: states and operands that meet each statement's hypotheses, clause by clause -/

theorem test_witness_DecodeOfEncodeAtPins :
    Instr.atPins .run (.load 31 31 (BitVec.allOnes 128) (BitVec.allOnes 96)) = true
      ∧ Instr.atPins .init (.iclk .rsvd) = true ∧ Instr.atPins .idle .reset = true := by decide

theorem test_witness_EveryVectorDecodesAtPins :
    iwRst 0x4 = false ∧ (iwRst 0xC82 = false ∧ Phase.run ≠ .init ∧ iwCmd 0xC82 = .load) := by decide

/-- Legal LOADs of the counting bytes: both lengths left out, one left out, and the ends 0 and 31 of the range; and an
illegal one for each disjunct. -/
theorem test_witness_ProgramTextAssembles :
    (∀ l ∈ [((none : Option Nat), (none : Option Nat)), (some 15, none), (none, some 11), (some 31, some 0)],
        ((List.range 16).map (BitVec.ofNat 8)).length = 16 ∧ ((List.range 12).map (BitVec.ofNat 8)).length = 12
          ∧ l.1.getD 16 ≤ 31 ∧ l.2.getD 12 ≤ 31)
      ∧ (zeros 17).length ≠ 16 ∧ (zeros 11).length ≠ 12 ∧ (∃ k, some 32 = some k ∧ 31 < k) :=
  ⟨by decide, by decide, by decide, 32, rfl, by decide⟩

theorem test_witness_StepRunsTheRequest :
    { idleCore with inputs := [.vector 0x4] }.inputs = .vector 0x4 :: []
      ∧ { idleCore with inputs := [.call .wait] }.inputs = .call .wait :: [] ∧ idleCore.inputs = [] := by decide

theorem test_witness_StepIsTotal : { idleCore with inputs := [.vector 0x6] }.inputs ≠ [] := by decide

theorem test_witness_ShiftMovesEveryBit : (List.replicate 128 true).length = 128 ∧ 126 < 127 ∧ 127 < 128 := by simp

/-- A NEXT in RUN, which shifts, and a LOAD with klen = 15, which leaves both registers. -/
theorem test_witness_RegistersOnlyShiftBetweenLoads :
    ∀ w ∈ [(0x4 : InputVector), 0xC7A], ∃ t, exec (decode runCore.phase w) runCore = .next t ∧ iwRst w = false
      ∧ ¬ AcceptedLoad runCore w := by
  intro w hw
  rcases List.mem_cons.1 hw with rfl | hw
  · exact ⟨_, rfl, by decide, fun h => absurd h.2.2.1 (by decide)⟩
  · rw [List.mem_singleton.1 hw]
    exact ⟨_, rfl, by decide, fun h => absurd h.2.2.2.1 (by decide)⟩

theorem test_witness_LinearFeedback : 96 < 128 ∧ 97 < 128 := by decide

theorem test_witness_NonlinearFeedback :
    (1 : Register).getLsbD 0 = (3 : Register).getLsbD 0 ∧ 96 < 128
      ∧ (68, 84) ∈ [(3, 67), (11, 13), (17, 18), (27, 59), (40, 48), (61, 65), (68, 84)] := by decide

theorem test_witness_InitClockStep : (initCore 254).phase = .init ∧ (initCore 255).phase = .init := by decide

theorem test_witness_WarmUpWhateverTheCommand : (initCore 0).phase = .init := by decide

theorem test_witness_GenerationClockStep : runCore.phase = .run := by decide

/-- A NOP in INIT, a NEXT and a NOP in RUN, and a NEXT in IDLE. -/
theorem test_witness_ClockModesAndPhases :
    (∃ t, exec (decode .init 0x0) (initCore 255) = .next t) ∧ iwRst 0x0 = false ∧ ¬ AcceptedLoad (initCore 255) 0x0
      ∧ (∃ t, exec (decode .run 0x4) runCore = .next t) ∧ iwCmd 0x4 = .next ∧ ¬ AcceptedLoad runCore 0x4
      ∧ (∃ t, exec (decode .run 0x0) runCore = .next t) ∧ iwCmd 0x0 ≠ .next ∧ ¬ AcceptedLoad runCore 0x0
      ∧ (∃ t, exec (decode .idle 0x4) idleCore = .next t) ∧ iwRst 0x4 = false ∧ ¬ AcceptedLoad idleCore 0x4 :=
  ⟨⟨_, rfl⟩, by decide, fun h => absurd h.2.2.1 (by decide), ⟨_, rfl⟩, by decide,
    fun h => absurd h.2.2.1 (by decide), ⟨_, rfl⟩, by decide, fun h => absurd h.2.2.1 (by decide), ⟨_, rfl⟩, by decide,
    fun h => absurd h.2.2.1 (by decide)⟩

theorem test_witness_ResetState :
    { runCore with draws := 0 }.draws = 0 ∧ ∃ t, exec .reset { runCore with draws := 0 } = .next t :=
  ⟨by decide, _, rfl⟩

theorem test_witness_NopHoldsTheState : runCore.phase ≠ .init ∧ idleCore.phase ≠ .init ∧ (initCore 255).phase = .init := by
  decide

theorem test_witness_LoadAccepted : idleCore.phase ≠ .init ∧ runCore.phase ≠ .init := by decide

theorem test_witness_LoadPlacesEveryBit :
    (zeros 15 ++ [0x80]).length = 16 ∧ (zeros 11 ++ [0x80]).length = 12 ∧ idleCore.phase ≠ .init
      ∧ 95 < 96 ∧ (96 < 128 ∧ 96 ≤ 96) ∧ 127 < 128 := by decide

theorem test_witness_LoadRefused : idleCore.phase ≠ .init ∧ (15 : LenField) ≠ 16 ∧ (13 : LenField) ≠ 12 := by decide

theorem test_witness_NextConsumesOneBit : runCore.phase = .run := by decide

theorem test_witness_NextRefusedInIdle : idleCore.phase = .idle := by decide

theorem test_witness_RsvdRefused :
    runCore.phase ≠ .init ∧ (initCore 255).phase = .init ∧ ∃ t, exec .rsvd (initCore 255) = .next t :=
  ⟨by decide, by decide, _, rfl⟩

theorem test_witness_ClockRowsOutsideTheirPhase : idleCore.phase ≠ .init ∧ runCore.phase ≠ .init := by decide

/-- Two states with the same core and different histories, at a refused NEXT. -/
theorem test_witness_StatusOutputsOfPhase :
    idleCore.phase = .idle ∧ idleCore.SameCore { idleCore with wire := true }
      ∧ ∃ t t' a a', exec (decode .idle 0x4) idleCore = .next t
        ∧ exec (decode .idle 0x4) { idleCore with wire := true } = .next t'
        ∧ t.trace = a :: idleCore.trace ∧ t'.trace = a' :: { idleCore with wire := true }.trace :=
  ⟨by decide, ⟨rfl, rfl, rfl, rfl⟩, _, _, _, _, rfl, rfl, rfl, rfl⟩

theorem test_witness_PriorityOfConditions :
    idleCore.phase ≠ .run ∧ (initCore 0).phase ≠ .run ∧ (runCore.phase = .run ∧ 5 ≠ 4) ∧ (zeros 17).length ≠ 16
      ∧ ((zeros 16).length = 16 ∧ (zeros 11).length ≠ 12)
      ∧ ((zeros 16).length = 16 ∧ (zeros 12).length = 12 ∧ 23 ≠ (zeros 24).length)
      ∧ (idleCore.phase ≠ .init ∧ (zeros 40).length ≠ 16)
      ∧ (runCore.phase ≠ .init ∧ (zeros 16).length = 16 ∧ (zeros 13).length ≠ 12) := by decide

/-- A refused NEXT, and a NEXT_BIT that reports NotReady. -/
theorem test_witness_RefusalChangesNothing :
    idleCore.phase ≠ .init ∧ respAt idleCore 0x4 ≠ .ok
      ∧ ∃ t, exec (MacroCall.toInstr .nextBit) idleCore = .next t
        ∧ t.results = .error .notReady :: idleCore.results :=
  ⟨by decide, by decide, _, rfl, rfl⟩

/-- Two RESETs; two NEXTs that differ in `klen`; a LOAD and a NOP in INIT. -/
theorem test_witness_DontCareFields :
    (iwRst 0x1 = true ∧ iwRst 0x7 = true)
      ∧ (iwRst 0x4 = false ∧ iwRst 0x84 = false ∧ iwCmd 0x4 = iwCmd 0x84 ∧ iwCmd 0x4 ≠ .load)
      ∧ (iwRst 0xC82 = false ∧ iwRst 0x0 = false ∧ (initCore 255).phase = .init) := by decide

/-- The control invariant of the test states, at both ends of the warm-up. -/
theorem test_inv : idleCore.Inv ∧ (initCore 254).Inv ∧ (initCore 255).Inv ∧ runCore.Inv := by
  simp [State.Inv, idleCore, initCore, runCore, core]

/-- A RESET, an accepted LOAD, the 255th and the 256th warm-up step, a refused LOAD in IDLE and a NEXT in RUN. -/
theorem test_witness_PhaseTransitions :
    ((∃ t, exec (decode .run 0x1) runCore = .next t) ∧ iwRst 0x1 = true)
      ∧ ((∃ t, exec (decode .run 0xC82) runCore = .next t) ∧ AcceptedLoad runCore 0xC82)
      ∧ ((∃ t, exec (decode .init 0x0) (initCore 254) = .next t) ∧ iwRst 0x0 = false ∧ (initCore 254).phase = .init
        ∧ (initCore 254).cnt.toNat ≤ 254)
      ∧ ((∃ t, exec (decode .init 0x0) (initCore 255) = .next t) ∧ iwRst 0x0 = false ∧ (initCore 255).phase = .init
        ∧ (initCore 255).cnt.toNat = 255)
      ∧ ((∃ t, exec (decode .idle 0xC7A) idleCore = .next t) ∧ idleCore.Inv ∧ iwRst 0xC7A = false
        ∧ idleCore.phase = .idle ∧ ¬ AcceptedLoad idleCore 0xC7A)
      ∧ (∃ t, exec (decode .run 0x4) runCore = .next t) ∧ runCore.Inv ∧ iwRst 0x4 = false ∧ runCore.phase = .run
        ∧ ¬ AcceptedLoad runCore 0x4 :=
  ⟨⟨⟨_, rfl⟩, by decide⟩, ⟨⟨_, rfl⟩, ⟨by decide, by decide, by decide, by decide, by decide⟩⟩,
    ⟨⟨_, rfl⟩, by decide, by decide, by decide⟩, ⟨⟨_, rfl⟩, by decide, by decide, by decide⟩,
    ⟨⟨_, rfl⟩, test_inv.1, by decide, by decide, fun h => absurd h.2.2.2.1 (by decide)⟩,
    ⟨_, rfl⟩, test_inv.2.2.2, by decide, by decide, fun h => absurd h.2.2.1 (by decide)⟩

theorem test_witness_ControlInvariantKept :
    (∃ t, exec .reset (core .run 1 2 3) = .next t) ∧ { initCore 255 with inputs := [.vector 0x0] }.Inv
      ∧ ∃ t, step { initCore 255 with inputs := [.vector 0x0] } = .next t :=
  ⟨⟨_, rfl⟩, test_inv.2.2.1, _, rfl⟩

theorem test_witness_ObservationsStayLawful :
    { runCore with inputs := [.vector 0x4], trace := [⟨.ok, some true, true, false, true⟩] }.TraceLawful
      ∧ ∃ t, step { runCore with inputs := [.vector 0x4], trace := [⟨.ok, some true, true, false, true⟩] } = .next t :=
  ⟨fun a ha => by rw [List.mem_singleton.1 ha]; simp [Sample.Lawful], _, rfl⟩

/-- Two IDLE states with different registers, and two RUN states with the same. -/
theorem test_witness_ResetContentsUnobservable :
    (core .idle 0 0 0).SameToHost (core .idle 1 2 0) ∧ runCore.SameToHost { runCore with draws := 9 } :=
  ⟨⟨rfl, rfl, rfl, rfl, rfl, fun h => absurd rfl h⟩, rfl, rfl, rfl, rfl, rfl, fun _ => ⟨rfl, rfl⟩⟩

/-- 256 NEXTs as the warm-up's vectors, and a NOP, a NEXT and a LOAD with klen = 15 after it. -/
theorem test_witness_CanonicalStateAndKeystream :
    runCore.phase ≠ .init ∧ (List.replicate 256 (0x4 : InputVector)).length = 256
      ∧ (∀ w ∈ List.replicate 256 (0x4 : InputVector), iwRst w = false)
      ∧ ∀ u ∈ [(0x0 : InputVector), 0x4, 0xC7A], iwRst u = false
        ∧ ¬ (iwCmd u = .load ∧ iwKlen u = 16 ∧ iwIvlen u = 12) := by
  refine ⟨by decide, List.length_replicate, fun w h => ?_, ?_⟩
  · rw [List.eq_of_mem_replicate h]
    decide
  · simp only [List.forall_mem_cons, List.not_mem_nil, false_imp_iff, implies_true, and_true]
    exact ⟨⟨by decide, by decide⟩, ⟨by decide, by decide⟩, by decide, by decide⟩

/-- 255 edges, still busy, and 256. -/
theorem test_witness_WarmUpIsExactly256 :
    idleCore.phase ≠ .init ∧ ∀ n ∈ [255, 256], (List.replicate n (0xC82 : InputVector)).length ≤ 256
      ∧ ((List.replicate n (0xC82 : InputVector)).length ≤ 255 ∨ (List.replicate n (0xC82 : InputVector)).length = 256)
      ∧ ∀ w ∈ List.replicate n (0xC82 : InputVector), iwRst w = false := by
  refine ⟨by decide, fun n hn => ?_⟩
  rw [List.length_replicate]
  have h : n = 255 ∨ n = 256 := by simpa using hn
  refine ⟨by omega, by omega, fun w hw => ?_⟩
  rw [List.eq_of_mem_replicate hw]
  decide

theorem test_witness_InitialiseCompletes :
    runCore.phase ≠ .init ∧ idleCore.phase ≠ .init ∧ (zeros 16).length = 16 ∧ (zeros 12).length = 12 := by decide

theorem test_witness_WaitCompletes :
    idleCore.phase ≠ .init ∧ runCore.phase ≠ .init ∧ (initCore 0).phase = .init ∧ (initCore 0).cnt.toNat ≤ 255
      ∧ (initCore 255).cnt.toNat ≤ 255 := by decide

theorem test_witness_NextBitCompletes : runCore.phase = .run := by decide

theorem test_witness_NextBytesCompletes :
    runCore.phase = .run ∧ ((none : Option Nat) = none ∨ (none : Option Nat) = some 0)
      ∧ (some 16 = none ∨ some 16 = some 16) := by decide

theorem test_witness_ProcessCompletes :
    idleCore.phase ≠ .init ∧ (zeros 16).length = 16 ∧ (zeros 12).length = 12
      ∧ (some 24 = none ∨ some 24 = some (zeros 24).length) := by decide

theorem test_witness_MacroRefinesItsExpansion :
    idleCore.phase ≠ .init ∧ RaisesNothing idleCore (.initialise (zeros 16) (zeros 12)) ∧ RaisesNothing idleCore .wait
      ∧ runCore.phase ≠ .init ∧ RaisesNothing runCore .nextBit ∧ RaisesNothing runCore (.nextBytes 2 (some 2))
      ∧ RaisesNothing runCore (.process (zeros 16) (zeros 12) [1, 2] (some 2)) :=
  ⟨by decide, ⟨rfl, rfl⟩, trivial, by decide, rfl, ⟨rfl, .inr rfl⟩, rfl, rfl, .inr rfl⟩

theorem test_witness_DeterminismOfTheStream :
    (zeros 16).length = 16 ∧ (zeros 12).length = 12 ∧ idleCore.phase ≠ .init ∧ runCore.phase ≠ .init := by decide

theorem test_witness_ProcessIsAnInvolution :
    (zeros 16).length = 16 ∧ (zeros 12).length = 12 ∧ idleCore.phase ≠ .init ∧ runCore.phase ≠ .init := by decide

theorem test_witness_StreamIsResumable : runCore.phase = .run := by decide

theorem test_witness_ChunkingInvariance :
    idleCore.phase ≠ .init ∧ (zeros 16).length = 16 ∧ (zeros 12).length = 12 := by decide

theorem test_witness_ZeroLengthRequests :
    runCore.phase = .run ∧ (idleCore.phase ≠ .init ∧ (zeros 16).length = 16 ∧ (zeros 12).length = 12)
      ∧ ((zeros 15).length ≠ 16 ∨ (zeros 12).length ≠ 12) ∧ ((zeros 16).length ≠ 16 ∨ (zeros 13).length ≠ 12) := by
  decide

theorem test_witness_ExpandIsLsbFirst : 31 < 8 * [(0 : Byte), 1, 2, 3].length := by decide

theorem test_witness_PackInvertsExpand : (List.replicate 16 true).length = 8 * 2 ∧ 1 < 2 ∧ 7 < 8 := by decide

theorem test_witness_KnownAnswers : idleCore.phase ≠ .init ∧ runCore.phase ≠ .init := by decide

end Sys2Proof.Tests
end

/-! PROOFS. The state and its outputs (spec/10_state.md): what a sequence of edges does, the control invariant,
the status outputs, and the canonical state with its keystream. -/

namespace Sys2Proof.Machine

/-! ## Sequences of edges -/

/-- The vectors `ws`, presented one edge each, lead from the first state to the second (R97). -/
inductive Edges : List InputVector → State → State → Prop where
  | nil (s : State) : Edges [] s s
  | cons {w : InputVector} {ws : List InputVector} {s t u : State} (head : Edge w s t) (tail : Edges ws t u) :
      Edges (w :: ws) s u

/-- `Edges` is what a run does when it is asked for vectors only. -/
theorem runSteps_vectors (ws : List InputVector) (s : State) :
    ∃ t, Edges ws s t ∧ runSteps ws.length { s with inputs := ws.map .vector } = .next (withInputs [] t) := by
  induction ws generalizing s with
  | nil => exact ⟨s, .nil s, rfl⟩
  | cons w ws ih =>
    obtain ⟨t, head, first⟩ := runSteps_presents ws.length w s (ws.map .vector)
    obtain ⟨u, tail, others⟩ := ih t
    exact ⟨u, .cons head tail, first.trans others⟩

/-- An accepted LOAD has one outcome (R55). -/
theorem Edge.eq_loadCore {key : KeyBus} {iv : IvBus} {s t : State} (ph : s.phase ≠ .init)
    (e : Edge (loadVector 16 12 key iv) s t) : t = observed .ok none (loadCore key iv s) :=
  (e.unique (edge_presentLoad 16 12 key iv s)).trans (presentLoad_accepted ph)

/-! ## One counted init-clock -/

theorem count_succ_toNat {c : Count} (hc : c.toNat ≤ 255) : (c + 1#9).toNat = c.toNat + 1 := by
  rw [BitVec.toNat_add_of_lt (by simp; omega)]
  rfl

theorem count_succ_eq_256 {c : Count} (hc : c.toNat ≤ 255) : c + 1#9 = 256#9 ↔ c.toNat = 255 := by
  rw [← BitVec.toNat_inj, count_succ_toNat hc]
  simp

theorem warmUp_cnt_toNat {s : State} (c : Cmd) (hc : s.cnt.toNat ≤ 255) :
    (warmUp c s).cnt.toNat = s.cnt.toNat + 1 := count_succ_toNat hc

theorem warmUp_phase {s : State} (c : Cmd) (hc : s.cnt.toNat ≤ 255) :
    (warmUp c s).phase = if s.cnt.toNat = 255 then .run else s.phase :=
  if_congr (count_succ_eq_256 hc) rfl rfl

/-! ## The control invariant (R10) -/

/-- The invariant speaks of `phase` and `cnt` only. -/
theorem State.Inv.of_control {s t : State} (h : s.Inv) (hp : t.phase = s.phase) (hc : t.cnt = s.cnt) : t.Inv := by
  unfold State.Inv
  rw [hp, hc]
  exact h

theorem presentReset_inv (s : State) : (presentReset s).Inv := ⟨fun _ => rfl, nofun, nofun⟩

theorem loadCore_inv (key : KeyBus) (iv : IvBus) (s : State) : (loadCore key iv s).Inv :=
  ⟨nofun, fun _ => Nat.zero_le _, nofun⟩

/-- The warm-up step leaves INIT exactly when it makes the count 256 (R57). -/
theorem warmUp_inv {s : State} (c : Cmd) (hp : s.phase = .init) (h : s.Inv) : (warmUp c s).Inv := by
  obtain ⟨-, hinit, -⟩ := h
  have hc := hinit hp
  unfold State.Inv
  rw [warmUp_phase c hc, warmUp_cnt_toNat c hc]
  by_cases last : s.cnt.toNat = 255
  · simp [last]
  · have room : s.cnt.toNat + 1 ≤ 255 := by omega
    simpa [last, hp] using room

theorem Edge.keeps_inv {w : InputVector} {s t : State} (h : s.Inv) (e : Edge w s t) : t.Inv := by
  cases e with
  | reset => exact presentReset_inv s
  | warm _ ph => exact warmUp_inv _ ph h
  | loadAccepted => exact (loadCore_inv (iwKey w) (iwIv w) s).of_control rfl rfl
  | nop | loadKeyLen | loadIvLen | next | nextIdle | rsvd => exact h.of_control rfl rfl

/-- Settles O37: a RESET ends with `cnt = 0` in IDLE from any state, and what every edge keeps every step keeps. -/
theorem controlInvariantKept : Obligations.ControlInvariantKept := by
  refine ⟨fun s t ht => ?_, fun s t hs ht => ?_⟩
  · cases ht
    exact presentReset_inv s
  · exact step_keeps (P := State.Inv) (fun _ _ _ h e => e.keeps_inv h) (fun _ _ h => h.of_control rfl rfl)
      (fun _ _ h => h.of_control rfl rfl) hs ht

/-! ## The status outputs (R13) -/

@[simp] theorem ready_iff {s : State} : ready s = true ↔ s.phase = .run := decide_eq_true_iff

@[simp] theorem busy_iff {s : State} : busy s = true ↔ s.phase = .init := decide_eq_true_iff

/-- The observation an edge adds carries the response that stood on the port before it (R60, R77). -/
theorem Edge.resp {w : InputVector} {s t : State} {a : Sample} (e : Edge w s t) (ha : t.trace = a :: s.trace) :
    a.resp = respAt s w := by
  cases e with
  | reset rst => cases ha; simp [respAt, rst]
  | warm rst ph => cases ha; by_cases nop : iwCmd w = .nop <;> simp [respAt, rst, ph, nop]
  | nop rst ph cmd => cases ha; simp [respAt, rst, ph, cmd]
  | loadKeyLen rst ph cmd len => cases ha; simp [respAt, rst, ph, cmd, show iwKlen w ≠ 16#5 from len]
  | loadIvLen rst ph cmd len ivlen => cases ha; simp [respAt, rst, ph, cmd, len, show iwIvlen w ≠ 12#5 from ivlen]
  | loadAccepted rst ph cmd len ivlen => cases ha; simp [respAt, rst, ph, cmd, len, ivlen]
  | next rst ph cmd => cases ha; simp [respAt, rst, ph, cmd]
  | nextIdle rst ph cmd => cases ha; simp [respAt, rst, ph, cmd]
  | rsvd rst ph cmd => cases ha; simp [respAt, rst, ph, cmd]

/-- Of the state, the response reads the phase only. -/
theorem respAt_congr {s s' : State} (h : s.phase = s'.phase) (w : InputVector) : respAt s w = respAt s' w := by
  unfold respAt
  rw [h]

/-- Settles O31: each output compares `phase` with one constant, and an edge's response is `respAt`, which reads
nothing of what happened before. -/
theorem statusOutputsOfPhase : Obligations.StatusOutputsOfPhase := by
  refine ⟨fun s => ⟨ready_iff, busy_iff, ?_, ?_⟩, fun s s' t t' w a a' hcore ht ht' ha ha' => ?_⟩
  · intro idle
    simp [ready, busy, idle]
  · rw [ready_iff, busy_iff]
    rintro ⟨run, init⟩
    exact absurd (run.symm.trans init) (by decide)
  · obtain ⟨-, -, hphase, -⟩ := hcore
    rw [(edge_of_exec_decode ht).resp ha, (edge_of_exec_decode ht').resp ha', respAt_congr hphase]

/-! ## The warm-up (R17, R57) -/

/-- `s` is what `n` counted init-clocks make of the loaded registers `r`. -/
structure WarmedBy (r : Register × Register) (n : Nat) (s : State) : Prop where
  regs : (s.L, s.N) = iclk^[n] r
  cnt : s.cnt.toNat = n
  phase : s.phase = if n = 256 then .run else .init

theorem loadCore_warmedBy (key : KeyBus) (iv : IvBus) (resp : Resp) (s : State) :
    WarmedBy (loadedL iv, loadedN key) 0 (observed resp none (loadCore key iv s)) := ⟨rfl, rfl, rfl⟩

/-- Before the 256th, every edge without reset counts one init-clock, whatever its command. -/
theorem WarmedBy.edge {r : Register × Register} {n : Nat} {w : InputVector} {s t : State} (h : WarmedBy r n s)
    (hn : n < 256) (rst : iwRst w = false) (e : Edge w s t) : WarmedBy r (n + 1) t := by
  obtain ⟨hregs, hcnt, hphase⟩ := h
  rw [if_neg hn.ne] at hphase
  have hc : s.cnt.toNat ≤ 255 := by omega
  obtain rfl := e.unique (.warm rst hphase)
  refine ⟨?_, ?_, ?_⟩
  · rw [Function.iterate_succ_apply', ← hregs]
    rfl
  · rw [warmUp_cnt_toNat _ hc, hcnt]
  · rw [warmUp_phase _ hc, hcnt, hphase]
    simp

theorem WarmedBy.edges {r : Register × Register} {n : Nat} {ws : List InputVector} {s t : State} (h : WarmedBy r n s)
    (hn : n + ws.length ≤ 256) (rst : ∀ w ∈ ws, iwRst w = false) (e : Edges ws s t) :
    WarmedBy r (n + ws.length) t := by
  induction e generalizing n with
  | nil => exact h
  | @cons w ws s t u head _ ih =>
    rw [List.length_cons] at hn ⊢
    obtain ⟨rst_w, rst_ws⟩ := List.forall_mem_cons.1 rst
    rw [← Nat.add_assoc, Nat.add_right_comm]
    exact ih (h.edge (by omega) rst_w head) (by omega) rst_ws

/-- A LOAD accepted outside INIT and up to 256 edges without reset are that many init-clocks of the loaded registers. -/
theorem warmedBy_of_load {key : KeyBus} {iv : IvBus} {ws : List InputVector} {s t : State} (ph : s.phase ≠ .init)
    (hn : ws.length ≤ 256) (rst : ∀ w ∈ ws, iwRst w = false) (e : Edges (loadVector 16 12 key iv :: ws) s t) :
    WarmedBy (loadedL iv, loadedN key) ws.length t := by
  cases e with
  | cons load rest =>
    have h := loadCore_warmedBy key iv .ok s
    rw [← load.eq_loadCore ph] at h
    simpa using h.edges (by omega) rst rest

/-! ## The keystream (R17, R58) -/

/-- `s` is in RUN, `k` generation-clocks after the registers `r`. -/
structure StreamAt (r : Register × Register) (k : Nat) (s : State) : Prop where
  regs : (s.L, s.N) = gclk^[k] r
  phase : s.phase = .run

theorem StreamAt.start {s : State} (h : s.phase = .run) : StreamAt (s.L, s.N) 0 s := ⟨rfl, h⟩

theorem StreamAt.zOut_eq {r : Register × Register} {k : Nat} {s : State} (h : StreamAt r k s) :
    zOut s = keystreamBit r k := by
  rw [zOut_of_run h.phase, keystreamBit, ← h.regs]

/-- In RUN an edge that is no RESET and no accepted LOAD moves the stream if and only if it is a NEXT. -/
theorem StreamAt.edge {r : Register × Register} {k : Nat} {w : InputVector} {s t : State} (h : StreamAt r k s)
    (rst : iwRst w = false) (unaccepted : ¬ (iwCmd w = .load ∧ iwKlen w = 16 ∧ iwIvlen w = 12)) (e : Edge w s t) :
    StreamAt r (k + if iwCmd w = .next then 1 else 0) t := by
  obtain ⟨hregs, hphase⟩ := h
  cases e with
  | reset hr => simp [rst] at hr
  | warm _ ph => simp [hphase] at ph
  | nextIdle _ ph => simp [hphase] at ph
  | loadAccepted _ _ cmd len ivlen => exact absurd ⟨cmd, len, ivlen⟩ unaccepted
  | next _ _ cmd =>
    rw [if_pos cmd]
    refine ⟨?_, hphase⟩
    rw [Function.iterate_succ_apply', ← hregs]
    rfl
  | nop _ _ cmd | loadKeyLen _ _ cmd | loadIvLen _ _ cmd | rsvd _ _ cmd =>
    rw [if_neg (by simp [cmd])]
    exact ⟨hregs, hphase⟩

theorem StreamAt.edges {r : Register × Register} {k : Nat} {us : List InputVector} {s t : State} (h : StreamAt r k s)
    (held : ∀ u ∈ us, iwRst u = false ∧ ¬ (iwCmd u = .load ∧ iwKlen u = 16 ∧ iwIvlen u = 12)) (e : Edges us s t) :
    StreamAt r (k + us.countP fun u => iwCmd u = .next) t := by
  induction e generalizing k with
  | nil => exact h
  | cons head _ ih =>
    obtain ⟨⟨rst, unaccepted⟩, held'⟩ := List.forall_mem_cons.1 held
    simpa [List.countP_cons, Nat.add_assoc, Nat.add_comm, Nat.add_left_comm] using
      ih (h.edge rst unaccepted head) held'

/-- Settles O41: the warm-up makes the canonical state of the loaded registers, and the run after it is a stream that
starts there. -/
theorem canonicalStateAndKeystream : Obligations.CanonicalStateAndKeystream := by
  intro s key iv ws us ph hws rst held
  obtain ⟨t, warm, warmRun⟩ := runSteps_vectors (loadVector 16 12 key iv :: ws) s
  rw [List.length_cons, hws] at warmRun
  obtain ⟨hregs, -, hphase⟩ := warmedBy_of_load ph hws.le rst warm
  rw [hws, ← initClocks_eq, ← canonical] at hregs
  rw [if_pos hws] at hphase
  obtain ⟨u, stream, streamRun⟩ := runSteps_vectors us t
  have final := (StreamAt.start hphase).edges held stream
  rw [hregs, Nat.zero_add] at final
  exact ⟨withInputs [] t, withInputs [] u, warmRun, hphase, hregs, streamRun, final.phase, final.zOut_eq⟩

end Sys2Proof.Machine

/-! PROOFS. The byte forms (spec/20_memory.md): the bits of `expand`, and its little-endian integer. -/

namespace Sys2Proof.Machine

/-! ## `expand` (R19) -/

/-- The default of `getD` is right past the end too, since a missing byte is 0. -/
theorem expand_getD (B : List Byte) (i : Nat) : (expand B).getD i false = expandBit B i := by
  by_cases h : i < 8 * B.length
  · simp [expand, h]
  · rw [List.getD_eq_default _ _ (by rw [expand_length]; omega), expandBit, List.getD_eq_default _ _ (by omega)]
    exact BitVec.getLsbD_zero.symm

theorem expandBit_cons (b : Byte) (B : List Byte) (i : Nat) :
    expandBit (b :: B) i = if i < 8 then b.getLsbD i else expandBit B (i - 8) := by
  split
  next low => simp [expandBit, Nat.div_eq_of_lt low, Nat.mod_eq_of_lt low]
  next high =>
    obtain ⟨k, rfl⟩ := Nat.exists_eq_add_of_le' (Nat.le_of_not_lt high)
    simp [expandBit]

/-- The first byte gives the low eight bits, and the integer of the other bytes stands above them. -/
theorem bitsValue_expand_cons (b : Byte) (B : List Byte) :
    bitsValue (expand (b :: B)) = b.toNat + 2 ^ 8 * bitsValue (expand B) := by
  refine Nat.eq_of_testBit_eq fun i => ?_
  rw [Nat.add_comm, Nat.testBit_two_pow_mul_add _ b.isLt, bitsValue_testBit, bitsValue_testBit, expand_getD,
    expand_getD, expandBit_cons]
  rfl

/-- Settles O54: the bits are those of `expandBit`, and the integer of the worked example follows byte by byte from
the little-endian recursion. -/
theorem expandIsLsbFirst : Obligations.ExpandIsLsbFirst := by
  have empty : bitsValue (expand []) = 0 := rfl
  refine ⟨fun B => ⟨expand_length B, fun i _ => expand_getD B i⟩, bitsValue_expand_cons, empty, ?_⟩
  simp [bitsValue_expand_cons, empty]

end Sys2Proof.Machine

/-! PROOFS. The don't-care fields of the input vector (spec/30_encoding.md R38): which fields the decoder reads, and
that in INIT the command reaches the response alone. -/

namespace Sys2Proof.Machine

/-- Without a reset, the decoder reads past `cmd` only for a LOAD outside INIT. -/
theorem decode_congr {p : Phase} {v w : InputVector} (rst_v : iwRst v = false) (rst_w : iwRst w = false)
    (cmd : iwCmd v = iwCmd w) (unread : p = .init ∨ iwCmd v ≠ .load) : decode p v = decode p w := by
  by_cases init : p = .init
  · rw [init, decode_of_init rst_v, decode_of_init rst_w, cmd]
  · have not_load : iwCmd w ≠ .load := cmd ▸ unread.resolve_left init
    rw [decode_of_not_init rst_v init, decode_of_not_init rst_w init, cmd]
    cases c : iwCmd w with
    | load => exact absurd c not_load
    | nop | next | rsvd => rfl

/-- In INIT every edge without a reset is the warm-up step of its command (R57). -/
theorem exec_decode_of_init {w : InputVector} {s : State} (rst : iwRst w = false) (init : s.phase = .init) :
    exec (decode s.phase w) s = .next (warmUp (iwCmd w) s) := by
  obtain ⟨t, exec_t, edge⟩ := exec_decode_edge w s
  rw [exec_t, edge.unique (.warm rst init)]

/-- The command of a warm-up step reaches the response and nothing else (R49, R57). -/
theorem warmUp_differ_in_resp (c d : Cmd) (s : State) :
    (warmUp c s).SameCore (warmUp d s) ∧ warmUp c s = { warmUp d s with trace := (warmUp c s).trace }
      ∧ ∃ a b, (warmUp c s).trace = a :: s.trace ∧ (warmUp d s).trace = b :: s.trace
        ∧ a = { b with resp := a.resp } :=
  ⟨⟨rfl, rfl, rfl, rfl⟩, rfl, _, _, rfl, rfl, rfl⟩

/-- The fields of the canonical vector of a command (R38). -/
theorem commandVector_fields (c : Cmd) :
    iwRst (commandVector c) = false ∧ iwCmd (commandVector c) = c ∧ iwKlen (commandVector c) = 0
      ∧ iwIvlen (commandVector c) = 0 ∧ iwKey (commandVector c) = 0 ∧ iwIv (commandVector c) = 0 :=
  ⟨iwRst_packVector .., iwCmd_packVector .., iwKlen_packVector .., iwIvlen_packVector .., iwKey_packVector ..,
    iwIv_packVector ..⟩

/-- Settles O35: vectors that agree in what the decoder reads decode to one instruction, and two vectors in INIT are
two warm-up steps. -/
theorem dontCareFields : Obligations.DontCareFields := by
  refine ⟨fun s v w => ⟨fun rst_v rst_w => ?_, fun rst_v rst_w cmd unread => ?_, fun rst_v rst_w init => ?_⟩,
    commandVector_fields, by decide⟩
  · rw [decode_of_rst rst_v, decode_of_rst rst_w]
  · rw [decode_congr rst_v rst_w cmd unread]
  · exact ⟨_, _, exec_decode_of_init rst_v init, exec_decode_of_init rst_w init, warmUp_differ_in_resp _ _ s⟩

end Sys2Proof.Machine

/-! PROOFS. The feedback polynomial (spec/40_networks.md R44): its exponents name the taps of `fL`, and the bit a
generation-clock shifts in is its constant term. -/

namespace Sys2Proof.Machine

/-- Bits summed onto their own sum cancel (R48: `a xor a = 0`). -/
theorem foldl_xor_sum_eq_false (bits : List Bool) : bits.foldl Bool.xor (bits.foldl Bool.xor false) = false := by
  have sum_onto (b : Bool) : bits.foldl Bool.xor b = (b ^^ bits.foldl Bool.xor false) :=
    calc bits.foldl Bool.xor b
      _ = bits.foldl Bool.xor (b ^^ false) := by rw [Bool.xor_false]
      _ = (b ^^ bits.foldl Bool.xor false) := List.foldl_assoc
  rw [sum_onto, Bool.xor_self]

/-- The six exponents of the feedback polynomial name the taps of `fL`, in the rule's order (R43, R44). -/
theorem fL_eq_sum_of_exponents (L : Register) :
    fL L = ([128, 121, 90, 58, 47, 32].map fun e => L.getLsbD (128 - e)).foldl Bool.xor false := by
  simp [fL]

/-- A generation-clock shifts `fL` into index 127 of the linear register (R50). -/
theorem gclk_getLsbD_127 (L N : Register) : (gclk (L, N)).1.getLsbD 127 = fL L := by
  simp [gclk_eq]

/-- Settles O14: the bit shifted in is the sum of the six taps, so the seven bits sum to 0. -/
theorem feedbackPolynomial : Obligations.FeedbackPolynomial := by
  refine ⟨fL_eq_sum_of_exponents, fun L N => ?_⟩
  rw [gclk_getLsbD_127, fL_eq_sum_of_exponents, foldl_xor_sum_eq_false]

end Sys2Proof.Machine

/-! PROOFS. The commands (spec/42_commands.md): what RSVD answers in each phase, NOPs that hold the state, and the
transitions of `phase` and `cnt`. -/

namespace Sys2Proof.Machine

/-! ## RSVD (R59) -/

theorem exec_rsvd (s : State) : exec .rsvd s = .next (presentRsvd s) := rfl

/-- One observation with another code is enough to deny that no command was refused (R73). -/
theorem State.not_noRefusal {s : State} {a : Sample} (mem : a ∈ s.trace) (refused : a.resp ≠ .ok) :
    ¬ s.NoRefusal := fun all_ok => refused (all_ok a mem)

/-- The refusal is on record in every phase: as E_BUSY in INIT, as E_ILLCMD elsewhere. -/
theorem presentRsvd_not_noRefusal (s : State) : ¬ (presentRsvd s).NoRefusal := by
  by_cases init : s.phase = .init
  · rw [presentRsvd_of_init init]
    exact State.not_noRefusal List.mem_cons_self (by simp)
  · rw [presentRsvd_of_ne init]
    exact State.not_noRefusal List.mem_cons_self (by simp)

/-- Settles O29: the edge of RSVD refuses outside INIT and is the warm-up step of its command in INIT. -/
theorem rsvdRefused : Obligations.RsvdRefused := by
  refine ⟨fun s ph => ?_, rfl, fun s t ht => ?_, fun s init => ?_⟩
  · rw [exec_rsvd, presentRsvd_of_ne ph, refuseCommand]
  · cases ht
    exact presentRsvd_not_noRefusal s
  · rw [exec_rsvd, presentRsvd_of_init init, warmUp, if_neg (by decide)]

/-! ## NOP (R54) -/

theorem exec_nop (s : State) : exec .nop s = .next (presentNop s) := rfl

/-- Edges with NOP's vector are NOPs one after the other. -/
theorem Edges.eq_nops {n : Nat} {s t : State} (e : Edges (List.replicate n (commandVector .nop)) s t) :
    t = presentNop^[n] s := by
  induction n generalizing s with
  | zero => cases e; rfl
  | succ n ih =>
    rw [List.replicate_succ] at e
    cases e with
    | cons head tail =>
      obtain rfl := head.unique (edge_presentNop s)
      exact ih tail

/-- `z_out` reads the core only (R60). -/
theorem State.SameCore.zOut_eq {s t : State} (h : s.SameCore t) : zOut s = zOut t := by
  obtain ⟨hL, hN, hphase, -⟩ := h
  unfold zOut
  rw [hL, hN, hphase]

/-- NOPs in IDLE and RUN hold the core (R54). -/
theorem nops_sameCore {s : State} (n : Nat) (ph : s.phase ≠ .init) : (presentNop^[n] s).SameCore s := by
  obtain ⟨hphase, hcnt, hL, hN⟩ := nops_hold n s ph
  exact ⟨hL, hN, hphase, hcnt⟩

/-- Settles O23: a run of NOP vectors is that many NOP edges, each of which holds the core that `z_out` reads. -/
theorem nopHoldsTheState : Obligations.NopHoldsTheState := by
  refine ⟨fun s ph => ?_, fun s n ph => ?_, fun s init => ?_⟩
  · rw [exec_nop, presentNop_of_ne ph]
  · obtain ⟨t, edges, run⟩ := runSteps_vectors (List.replicate n (commandVector .nop)) s
    rw [List.length_replicate, List.map_replicate] at run
    have held : t.SameCore s := edges.eq_nops ▸ nops_sameCore n ph
    exact ⟨withInputs [] t, run, held, held.zOut_eq⟩
  · rw [exec_nop, presentNop_of_init init]

/-! ## The transitions of the control state (R56) -/

section Transitions

variable {w : InputVector} {s t : State} (e : Edge w s t)

include e

theorem Edge.control_of_rst (rst : iwRst w = true) : t.phase = .idle ∧ t.cnt = 0 := by
  obtain rfl := e.unique (.reset rst)
  exact ⟨rfl, rfl⟩

theorem Edge.control_of_acceptedLoad (accepted : AcceptedLoad s w) : t.phase = .init ∧ t.cnt = 0 := by
  obtain ⟨rst, ph, cmd, len, ivlen⟩ := accepted
  obtain rfl := e.unique (.loadAccepted rst ph cmd len ivlen)
  exact ⟨rfl, rfl⟩

/-- Every edge in INIT counts, and the one at 255 ends the warm-up (R57). -/
theorem Edge.control_of_init (rst : iwRst w = false) (init : s.phase = .init) (hc : s.cnt.toNat ≤ 255) :
    t.phase = (if s.cnt.toNat = 255 then .run else .init) ∧ t.cnt.toNat = s.cnt.toNat + 1 := by
  obtain rfl := e.unique (.warm rst init)
  rw [warmUp_phase _ hc, init]
  exact ⟨rfl, warmUp_cnt_toNat _ hc⟩

theorem Edge.control_unchanged (rst : iwRst w = false) (ph : s.phase ≠ .init) (unaccepted : ¬ AcceptedLoad s w) :
    t.phase = s.phase ∧ t.cnt = s.cnt := by
  cases e with
  | reset rst' => simp [rst] at rst'
  | warm _ init => exact absurd init ph
  | loadAccepted _ _ cmd len ivlen => exact absurd ⟨rst, ph, cmd, len, ivlen⟩ unaccepted
  | nop | loadKeyLen | loadIvLen | next | nextIdle | rsvd => exact ⟨rfl, rfl⟩

end Transitions

/-- Settles O36: one lemma per row of R56, and the counts of IDLE and RUN from the control invariant. -/
theorem phaseTransitions : Obligations.PhaseTransitions := by
  intro s t w ht
  have e := edge_of_exec_decode ht
  refine ⟨e.control_of_rst, e.control_of_acceptedLoad, fun rst init hc => ?_, fun rst init hc => ?_,
    e.control_unchanged, fun inv rst idle unaccepted => ?_, fun inv rst run unaccepted => ?_⟩
  · have h := e.control_of_init rst init (by omega)
    rwa [if_neg (by omega)] at h
  · have h := e.control_of_init rst init hc.le
    rwa [if_pos hc, hc] at h
  · obtain ⟨inv_idle, -, -⟩ := inv
    obtain ⟨hphase, hcnt⟩ := e.control_unchanged rst (by simp [idle]) unaccepted
    exact ⟨hphase.trans idle, hcnt.trans (inv_idle idle)⟩
  · obtain ⟨-, -, inv_run⟩ := inv
    obtain ⟨hphase, hcnt⟩ := e.control_unchanged rst (by simp [run]) unaccepted
    exact ⟨hphase.trans run, hcnt ▸ inv_run run⟩

end Sys2Proof.Machine

/-! PROOFS. The laws of the macro-operations (spec/43_macros.md section 5): the bytes a running state gives next,
their concatenation, and the bytewise xor with them. -/

namespace Sys2Proof.Machine

/-! ## The bytes a state gives next (R22, R63) -/

/-- The bytes NEXT_BYTES(n) packs from the bits of the next `8n` NEXTs (R63). -/
def streamBytes (n : Nat) (s : State) : List Byte := pack (streamBits (8 * n) s)

@[simp] theorem streamBytes_length (n : Nat) (s : State) : (streamBytes n s).length = n := by
  simp [streamBytes, streamBits_length]

/-- The NEXTs of `a + b` bytes are those of `a` bytes and then those of `b`. -/
theorem nexts_add (a b : Nat) (s : State) :
    presentNext^[8 * (a + b)] s = presentNext^[8 * b] (presentNext^[8 * a] s) := by
  rw [Nat.mul_add, Nat.add_comm, Function.iterate_add_apply]

theorem streamBytes_add (a b : Nat) (s : State) :
    streamBytes (a + b) s = streamBytes a s ++ streamBytes b (presentNext^[8 * a] s) := by
  rw [streamBytes, Nat.mul_add, streamBits_add, pack_append (streamBits_length _ s)]
  rfl

/-- From the canonical state on they are the keystream of the key and IV (R17). -/
theorem streamBytes_of_canonical {key : KeyBus} {iv : IvBus} {s : State} (n : Nat) (run : s.phase = .run)
    (regs : (s.L, s.N) = canonical key iv) : streamBytes n s = keystreamBytes key iv n := by
  rw [streamBytes, streamBits_run _ s run, regs, keystreamBytes]

@[simp] theorem keystreamBytes_length (key : KeyBus) (iv : IvBus) (n : Nat) :
    (keystreamBytes key iv n).length = n := by
  simp [keystreamBytes]

theorem nextBytesOp_eq_streamBytes {s : State} (n : Nat) (run : s.phase = .run) :
    nextBytesOp n none s = (presentNext^[8 * n] s, .bytes (streamBytes n s)) := by
  rw [nextBytesOp_of_run run (.inl rfl), ← streamBits_run _ s run, streamBytes]

/-! ## A result handed back does not reach the stream (R97) -/

@[simp] theorem nexts_results (k : Nat) (s : State) : (presentNext^[k] s).results = s.results := by
  obtain ⟨-, -, kept, -⟩ := nexts_untouched k s
  exact kept

/-- Handing a result back and presenting NEXT commute, in every phase. -/
theorem deliver_semiconj_presentNext (r : Result) : Function.Semiconj (deliver r) presentNext presentNext := by
  intro s
  cases phase : s.phase with
  | idle => rw [presentNext_of_idle phase, presentNext_of_idle (s := deliver r s) phase]; rfl
  | init => rw [presentNext_of_init phase, presentNext_of_init (s := deliver r s) phase]; rfl
  | run => rw [presentNext_of_run phase, presentNext_of_run (s := deliver r s) phase]; rfl

theorem nexts_deliver (k : Nat) (r : Result) (s : State) :
    presentNext^[k] (deliver r s) = deliver r (presentNext^[k] s) :=
  ((deliver_semiconj_presentNext r).iterate_right k s).symm

theorem streamBytes_deliver {s : State} (n : Nat) (r : Result) (run : s.phase = .run) :
    streamBytes n (deliver r s) = streamBytes n s := by
  rw [streamBytes, streamBytes, streamBits_run _ s run, streamBits_run _ (deliver r s) run]
  rfl

/-! ## The xor with a keystream (R48, R64) -/

/-- Xor with a string of the same length, twice, is the identity. -/
theorem xorBytes_xorBytes_cancel {B ks : List Byte} (len : B.length = ks.length) :
    xorBytes (xorBytes B ks) ks = B := by
  refine List.ext_getElem (by simp [len]) fun i _ _ => ?_
  simp [xorBytes]

theorem xorBytes_append {B ks : List Byte} (B' ks' : List Byte) (len : B.length = ks.length) :
    xorBytes (B ++ B') (ks ++ ks') = xorBytes B ks ++ xorBytes B' ks' :=
  List.zipWith_append len

/-! ## The laws -/

/-- INITIALIZE leaves the canonical state in RUN and hands nothing back by itself (R17, R61). -/
theorem initialiseOp_ready {s : State} {K V : List Byte} (ph : s.phase ≠ .init) (hK : K.length = 16)
    (hV : V.length = 12) :
    (initialiseOp K V s).1.phase = .run
      ∧ ((initialiseOp K V s).1.L, (initialiseOp K V s).1.N) = canonical (keyBus K) (ivBus V)
      ∧ (initialiseOp K V s).1.results = s.results := by
  obtain ⟨tr, state, -⟩ := initialiseOp_state ph hK hV
  rw [state]
  exact ⟨rfl, rfl, rfl⟩

/-- NEXT_BYTES in RUN hands back the next bytes, on top of what was handed back before (R63). -/
theorem exec_nextBytes_of_run {s : State} (n : Nat) (run : s.phase = .run) :
    exec (.nextBytes n none) s = .next (deliver (.bytes (streamBytes n s)) (presentNext^[8 * n] s)) := by
  rw [exec_nextBytes, nextBytesOp_eq_streamBytes n run]

/-- What PROCESS returns depends on the key, the IV and the message only (R64, R67). -/
theorem exec_process_returns {s : State} {K V : List Byte} (B : List Byte) (ph : s.phase ≠ .init)
    (hK : K.length = 16) (hV : V.length = 12) :
    ∃ t, exec (.process K V B none) s = .next t
      ∧ t.results = .bytes (xorBytes B (keystreamBytes (keyBus K) (ivBus V) B.length)) :: s.results := by
  obtain ⟨-, -, kept⟩ := initialiseOp_ready ph hK hV
  refine ⟨_, exec_process K V B none s, ?_⟩
  rw [processOp_accepted ph hK hV (.inl rfl), deliver_results, nexts_results, kept]

/-- Chunk after chunk from a running state is the whole buffer xor the bytes that state gives next (R69, R70). -/
theorem chunkedOp_of_run {s : State} (chunks : List (List Byte)) (run : s.phase = .run) :
    chunkedOp chunks s = (presentNext^[8 * chunks.flatten.length] s,
      .bytes (xorBytes chunks.flatten (streamBytes chunks.flatten.length s))) := by
  induction chunks generalizing s with
  | nil => rfl
  | cons B Bs ih =>
    obtain ⟨run', -, -⟩ := nexts_run (8 * B.length) s run
    rw [List.flatten_cons, List.length_append, streamBytes_add, xorBytes_append _ _ (streamBytes_length _ s).symm,
      nexts_add, chunkedOp, nextBytesOp_eq_streamBytes _ run]
    simp only [ih run']

/-- Settles O49: the registers are the canonical state of the key and IV, and the bytes its keystream. -/
theorem determinismOfTheStream : Obligations.DeterminismOfTheStream := by
  intro K V n hK hV
  refine ⟨keystreamBytes (keyBus K) (ivBus V) n, canonical (keyBus K) (ivBus V), fun s ph => ?_⟩
  obtain ⟨run, regs, -⟩ := initialiseOp_ready ph hK hV
  refine ⟨_, _, exec_initialise K V s, regs, exec_nextBytes_of_run n run, ?_⟩
  rw [deliver_results, streamBytes_deliver _ _ run, streamBytes_of_canonical n run regs, nexts_results]

/-- Settles O50: both runs of PROCESS xor one and the same keystream onto their message. -/
theorem processIsAnInvolution : Obligations.ProcessIsAnInvolution := by
  intro K V B hK hV
  have len : (xorBytes B (keystreamBytes (keyBus K) (ivBus V) B.length)).length = B.length := by simp
  refine ⟨_, len, fun s ph => exec_process_returns B ph hK hV, fun s ph => ?_⟩
  have back := exec_process_returns (xorBytes B (keystreamBytes (keyBus K) (ivBus V) B.length)) ph hK hV
  rwa [len, xorBytes_xorBytes_cancel (keystreamBytes_length _ _ _).symm] at back

/-- Settles O51: the bytes and the NEXTs of `a + b` are those of `a` and then those of `b`, and the result handed
back in between does not reach the stream. -/
theorem streamIsResumable : Obligations.StreamIsResumable := by
  intro s a b run
  obtain ⟨run', -, -⟩ := nexts_run (8 * a) s run
  refine ⟨_, _, _, streamBytes a s, streamBytes b (presentNext^[8 * a] s), exec_nextBytes_of_run (a + b) run, ?_,
    exec_nextBytes_of_run a run, ?_, exec_nextBytes_of_run b run', ?_, ?_, ?_, streamBytes_length _ _,
    streamBytes_length _ _⟩
  · rw [deliver_results, streamBytes_add, nexts_results]
  · rw [deliver_results, nexts_results]
  · rw [deliver_results, nexts_results, streamBytes_deliver _ _ run']
  · simp [State.SameCore, nexts_add, nexts_deliver]
  · simp [nexts_add, nexts_deliver]

/-- Settles O52: INITIALIZE leaves a running state, from which the chunks are the whole buffer xor its keystream. -/
theorem chunkingInvariance : Obligations.ChunkingInvariance := by
  intro s K V chunks ph hK hV
  obtain ⟨run, regs, -⟩ := initialiseOp_ready ph hK hV
  rw [processOp_accepted ph hK hV (.inl rfl), chunkedOp_of_run chunks run, streamBytes_of_canonical _ run regs]

end Sys2Proof.Machine

/-! PROOFS. The encoding (spec/30_encoding.md): that packing and taking the fields are inverse, and what decoding and
encoding make of each other. -/

namespace Sys2Proof

/-! ## Packing and the fields (R31, R32) -/

theorem cmdBits_cmdOfBits (c : BitVec 2) : cmdBits (cmdOfBits c) = c := by
  decide +revert

/-- The fields of a vector, packed again, are the vector: no bit of it lies outside a field. -/
theorem packVector_fields (w : InputVector) :
    packVector (iwRst w) (iwCmd w) (iwKlen w) (iwIvlen w) (iwKey w) (iwIv w) = w := by
  refine BitVec.eq_of_getLsbD_eq fun i hi => ?_
  rw [packVector_getLsbD, iwCmd, cmdBits_cmdOfBits, iwRst, iwCmdBits, iwKlen, iwIvlen, iwKey, iwIv]
  simp only [BitVec.getLsbD_ofBool, BitVec.getLsbD_extractLsb']
  split_ifs with rst cmd klen ivlen key
  · obtain rfl : i = 0 := by omega
    rfl
  all_goals rw [decide_eq_true (by omega), Bool.true_and, Nat.add_sub_of_le (by omega)]

/-- One vector above another, as numbers. -/
theorem append_toNat {m n : Nat} (x : BitVec m) (y : BitVec n) : (x ++ y).toNat = y.toNat + x.toNat * 2 ^ n := by
  rw [BitVec.toNat_append, ← Nat.shiftLeft_add_eq_or_of_lt y.isLt, Nat.shiftLeft_eq, Nat.add_comm]

/-- Settles O3: each field stands above those packed below it, whose widths add up to its place. -/
theorem inputVectorAsNumber : Obligations.InputVectorAsNumber := by
  intro rst c klen ivlen key iv
  rw [packVector]
  simp only [append_toNat, BitVec.toNat_ofBool]
  ring

/-! ## Decoding an encoding (R39) -/

theorem decode_resetVector (p : Phase) : decode p resetVector = .reset := decode_of_rst (iwRst_packVector ..)

theorem decode_commandVector_of_init (c : Cmd) : decode .init (commandVector c) = .iclk c := by
  rw [commandVector, decode_of_init (iwRst_packVector ..), iwCmd_packVector]

theorem decode_loadVector {p : Phase} (ph : p ≠ .init) (klen ivlen : LenField) (key : KeyBus) (iv : IvBus) :
    decode p (loadVector klen ivlen key iv) = .load klen ivlen key iv := by
  rw [loadVector, decode_of_not_init (iwRst_packVector ..) ph]
  simp

/-- Settles O1: each constructor an edge can select has its own vector; the others are excluded by `atPins`. -/
theorem decodeOfEncodeAtPins : Obligations.DecodeOfEncodeAtPins := by
  intro p i selectable
  cases i with
  | reset => exact ⟨_, rfl, decode_resetVector p⟩
  | load klen ivlen key iv => exact ⟨_, rfl, decode_loadVector (of_decide_eq_true selectable) klen ivlen key iv⟩
  | nop | next | rsvd =>
    refine ⟨commandVector _, rfl, ?_⟩
    rw [commandVector, decode_of_not_init (iwRst_packVector ..) (of_decide_eq_true selectable), iwCmd_packVector]
  | iclk c =>
    obtain rfl : p = .init := of_decide_eq_true selectable
    exact ⟨_, rfl, decode_commandVector_of_init c⟩
  | gclk | initialise | wait | nextBit | nextBytes | process | shift | fl | fn | z => cases selectable

/-! ## Encoding what was decoded (R38) -/

/-- Without a reset and outside INIT, the encoding keeps `cmd`, and all of a LOAD. -/
theorem encode_decode_of_not_init {p : Phase} {w : InputVector} (rst : iwRst w = false) (ph : p ≠ .init) :
    (decode p w).atPins p = true ∧ ∃ v, encode (decode p w) = some v ∧ iwRst v = false ∧ iwCmd v = iwCmd w
      ∧ (iwCmd w = .load → v = w) := by
  rw [decode_of_not_init rst ph]
  cases cmd : iwCmd w with
  | load =>
    have kept : loadVector (iwKlen w) (iwIvlen w) (iwKey w) (iwIv w) = w := by
      simpa only [rst, cmd, loadVector] using packVector_fields w
    exact ⟨decide_eq_true ph, w, congrArg some kept, rst, cmd, fun _ => rfl⟩
  | nop | next | rsvd =>
    exact ⟨decide_eq_true ph, _, rfl, iwRst_packVector .., iwCmd_packVector .., nofun⟩

/-- Settles O2: the lines of R39 one by one: a reset, the warm-up step of the command, or the command itself. -/
theorem everyVectorDecodesAtPins : Obligations.EveryVectorDecodesAtPins := by
  intro p w
  cases rst : iwRst w with
  | true =>
    rw [decode_of_rst rst]
    exact ⟨rfl, resetVector, rfl, iwRst_packVector .., nofun, nofun⟩
  | false =>
    by_cases init : p = .init
    · subst init
      rw [decode_of_init rst]
      exact ⟨rfl, _, rfl, iwRst_packVector .., fun _ => iwCmd_packVector .., fun _ ph => absurd rfl ph⟩
    · obtain ⟨selectable, v, encoded, rst_v, cmd_v, load_v⟩ := encode_decode_of_not_init rst init
      exact ⟨selectable, v, encoded, rst_v, fun _ => cmd_v, fun _ _ => load_v⟩

/-! ## The program text (R40, R41) -/

theorem assemble_load_illegal {K V : List Byte} {kl vl : Option Nat}
    (h : K.length ≠ 16 ∨ V.length ≠ 12 ∨ (∃ k, kl = some k ∧ 31 < k) ∨ (∃ k, vl = some k ∧ 31 < k)) :
    assemble (.load K V kl vl) = .error .illegalLoad := by
  refine assemble_illegal ?_
  unfold Statement.wellFormed
  rcases h with hK | hV | ⟨k, rfl, hk⟩ | ⟨k, rfl, hk⟩
  · simp [hK]
  · simp [hV]
  · simp [hk]
  · simp [hk]

/-- A legal LOAD assembles to a vector with its lengths and buses in the operand fields. -/
theorem assemble_load_decodes {K V : List Byte} {kl vl : Option Nat} (hK : K.length = 16) (hV : V.length = 12)
    (hkl : kl.getD 16 ≤ 31) (hvl : vl.getD 12 ≤ 31) :
    ∃ w, assemble (.load K V kl vl) = .ok [.vector w] ∧ decode .idle w =
      .load (BitVec.ofNat 5 (kl.getD 16)) (BitVec.ofNat 5 (vl.getD 12)) (Machine.keyBus K) (Machine.ivBus V) := by
  have legal : (Statement.load K V kl vl).wellFormed = true := by
    simp [Statement.wellFormed, hK, hV, hkl, hvl]
  exact ⟨_, assemble_load legal, decode_loadVector (by decide) ..⟩

/-- Settles O5: the fixed words by running the assembler; the vector of a legal LOAD by decoding its encoding. -/
theorem programTextAssembles : Obligations.ProgramTextAssembles := by
  refine ⟨rfl, rfl, fun n => rfl, fun n => rfl, rfl, rfl, ?_, ?_,
    fun K V kl vl hK hV hkl hvl => assemble_load_decodes hK hV hkl hvl, fun m => rfl,
    fun K V kl vl illegal => assemble_load_illegal illegal⟩
  · decide +kernel
  · decide +kernel

/-- Settles O4, by running the decoder on the ten numbers. -/
theorem workedVectorsDecode : Obligations.WorkedVectorsDecode := by
  unfold Obligations.WorkedVectorsDecode
  decide

/-! ## The codes (R32, R34, R35, R74) -/

/-- `busy` and `ready` are the two bits of the phase code. -/
theorem status_eq_phaseBits (s : Machine.State) :
    Machine.busy s = (Machine.phaseBits s.phase).getLsbD 0
      ∧ Machine.ready s = (Machine.phaseBits s.phase).getLsbD 1 := by
  unfold Machine.busy Machine.ready
  cases s.phase with
  | idle | init | run => decide

/-- Settles O6: the tables by evaluation, the status bits phase by phase. -/
theorem codesOfTheInterface : Obligations.CodesOfTheInterface :=
  ⟨by decide, by decide, by decide, status_eq_phaseBits, by decide⟩

end Sys2Proof

/-! PROOFS. The step (spec/42_commands.md section 1, spec/70_reset_and_hazards.md R97): what it runs, that it is total,
what it keeps of the observations, and that no reset content reaches the host. -/

namespace Sys2Proof.Machine

/-! ## What a step runs (R53, R97) -/

theorem step_vector {s : State} {w : InputVector} {rest : List Request} (h : s.inputs = .vector w :: rest) :
    step s = exec (decode s.phase w) (withInputs rest s) := by
  rw [step, h]
  rfl

theorem step_call {s : State} {m : MacroCall} {rest : List Request} (h : s.inputs = .call m :: rest) :
    step s = exec m.toInstr (withInputs rest s) := by
  rw [step, h]
  rfl

theorem step_end {s : State} (h : s.inputs = []) : step s = .refused .endOfRun := by
  rw [step, h]

/-- Settles O7: the three cases of the host's sequence. -/
theorem stepRunsTheRequest : Obligations.StepRunsTheRequest :=
  ⟨fun _ _ _ h => step_vector h, fun _ _ _ h => step_call h, fun _ h => step_end h⟩

/-- A macro-operation completes, and keeps what edges and handing back a result keep. -/
theorem exec_call_keeps {P : State → Prop} (edge : ∀ w s t, P s → Edge w s t → P t)
    (deliver : ∀ r s, P s → P (deliver r s)) (m : MacroCall) {s : State} (hs : P s) :
    ∃ t, exec m.toInstr s = .next t ∧ P t := by
  cases m with
  | initialise K V => exact ⟨_, exec_initialise K V s, deliver _ _ (initialiseOp_keeps edge K V hs)⟩
  | wait => exact ⟨_, exec_wait s, deliver _ _ (waitEdges_keeps edge hs)⟩
  | nextBit => exact ⟨_, exec_nextBit s, deliver _ _ (nextBitOp_keeps edge hs)⟩
  | nextBytes n o => exact ⟨_, exec_nextBytes n o s, deliver _ _ (nextBytesOp_keeps edge n o hs)⟩
  | process K V B o => exact ⟨_, exec_process K V B o s, deliver _ _ (processOp_keeps edge K V B o hs)⟩

theorem Edge.inputs_eq {w : InputVector} {s t : State} (e : Edge w s t) : t.inputs = s.inputs := by
  obtain ⟨kept, -, -⟩ := e.untouched
  exact kept

/-- Settles O8: an edge and a macro-operation both complete, and neither touches what is still to come. -/
theorem stepIsTotal : Obligations.StepIsTotal := by
  intro s nonempty
  obtain ⟨q, rest, inputs⟩ := List.exists_cons_of_ne_nil nonempty
  rw [inputs, List.tail_cons]
  cases q with
  | vector w =>
    rw [step_vector inputs]
    obtain ⟨t, exec_t, e⟩ := exec_decode_edge w (withInputs rest s)
    exact ⟨t, exec_t, e.inputs_eq⟩
  | call m =>
    rw [step_call inputs]
    exact exec_call_keeps (P := fun t => t.inputs = rest) (fun _ _ _ h e => e.inputs_eq.trans h) (fun _ _ h => h) m rfl

/-! ## The phase a vector is decoded in (R39, R53) -/

/-- In INIT the command a vector names outside INIT is the same warm-up step (R57). -/
theorem exec_decode_idle_of_init {w : InputVector} {s : State} (rst : iwRst w = false) (init : s.phase = .init) :
    exec (decode .idle w) s = .next (warmUp (iwCmd w) s) := by
  rw [decode_of_not_init rst (by decide)]
  cases iwCmd w with
  | nop => exact congrArg _ (presentNop_of_init init)
  | load => exact congrArg _ (presentLoad_of_init init)
  | next => exact congrArg _ (presentNext_of_init init)
  | rsvd => exact congrArg _ (presentRsvd_of_init init)

/-- Settles O9: a reset and the decoding outside INIT do not read the phase, and in INIT both are the warm-up step. -/
theorem decodingPhaseIsImmaterial : Obligations.DecodingPhaseIsImmaterial := by
  intro s w
  cases rst : iwRst w with
  | true => rw [decode_of_rst rst, decode_of_rst rst]
  | false =>
    by_cases init : s.phase = .init
    · rw [exec_decode_idle_of_init rst init, exec_decode_of_init rst init]
    · rw [decode_of_not_init rst init, decode_of_not_init rst (by decide)]

/-! ## Lawful observations (R13, R58, R60, R72, R93) -/

theorem ready_and_busy (s : State) : (ready s && busy s) = false := by
  unfold ready busy
  cases s.phase <;> rfl

theorem ready_of_zOut {s : State} (h : zOut s = true) : ready s = true := by
  rw [ready_iff]
  by_contra ph
  simp [zOut, ph] at h

/-- The outputs are lawful in every state; what is left to see is the code and the bit consumed. -/
theorem observed_traceLawful {r : Resp} {b : Option Bool} {s : State} (h : s.TraceLawful) (resp : r ≠ .eBufLen)
    (taken : b.isSome → r = .ok ∧ s.phase = .run) : (observed r b s).TraceLawful := by
  refine List.forall_mem_cons.2 ⟨⟨ready_and_busy s, ready_of_zOut, resp, fun hb => ?_⟩, h⟩
  obtain ⟨ok, run⟩ := taken hb
  exact ⟨ok, ready_iff.2 run⟩

theorem Edge.keeps_traceLawful {w : InputVector} {s t : State} (h : s.TraceLawful) (e : Edge w s t) :
    t.TraceLawful := by
  cases e with
  | reset => exact observed_traceLawful (s := resetCore s) h (by decide) nofun
  | warm => exact observed_traceLawful (s := warmCore s) h (by split <;> decide) nofun
  | loadAccepted => exact observed_traceLawful (s := loadCore (iwKey w) (iwIv w) s) h (by decide) nofun
  | next _ run => exact observed_traceLawful (s := generateCore s) h (by decide) fun _ => ⟨rfl, run⟩
  | nop | loadKeyLen | loadIvLen | nextIdle | rsvd => exact observed_traceLawful h (by decide) nofun

/-- Settles O39: what every edge keeps every step keeps, and neither a result nor a request is an observation. -/
theorem observationsStayLawful : Obligations.ObservationsStayLawful := fun _ _ hs ht =>
  step_keeps (P := State.TraceLawful) (fun _ _ _ h e => e.keeps_traceLawful h) (fun _ _ h => h) (fun _ _ h => h) hs ht

/-- Settles O38: nothing is observed yet, and the count of IDLE is 0. -/
theorem resetMeetsInvariants : Obligations.ResetMeetsInvariants :=
  ⟨⟨fun _ => rfl, nofun, nofun⟩, nofun⟩

/-! ## States a host cannot tell apart (R15, R16) -/

namespace State.SameToHost

variable {s t : State}

theorem phase_eq (h : s.SameToHost t) : s.phase = t.phase := h.left

theorem inputs_eq (h : s.SameToHost t) : s.inputs = t.inputs := by
  obtain ⟨-, -, inputs, -⟩ := h
  exact inputs

theorem regs_eq (h : s.SameToHost t) (ph : s.phase ≠ .idle) : s.L = t.L ∧ s.N = t.N := by
  obtain ⟨-, -, -, -, -, regs⟩ := h
  exact regs ph

theorem ready_eq (h : s.SameToHost t) : ready s = ready t := by rw [ready, ready, h.phase_eq]

theorem busy_eq (h : s.SameToHost t) : busy s = busy t := by rw [busy, busy, h.phase_eq]

/-- The filter bit is on the port in RUN only, where the registers are the same. -/
theorem zOut_eq (h : s.SameToHost t) : zOut s = zOut t := by
  by_cases run : s.phase = .run
  · obtain ⟨hL, hN⟩ := h.regs_eq (by simp [run])
    rw [zOut_of_run run, zOut_of_run (h.phase_eq ▸ run), hL, hN]
  · rw [zOut, zOut, if_neg run, if_neg (h.phase_eq ▸ run)]

theorem observed (h : s.SameToHost t) (r : Resp) (b : Option Bool) :
    (observed r b s).SameToHost (observed r b t) := by
  have outputs := And.intro h.ready_eq (And.intro h.busy_eq h.zOut_eq)
  obtain ⟨phase, cnt, inputs, trace, results, regs⟩ := h
  obtain ⟨hready, hbusy, hzOut⟩ := outputs
  exact ⟨phase, cnt, inputs, by rw [observed_trace, observed_trace, hready, hbusy, hzOut, trace], results, regs⟩

theorem deliver (h : s.SameToHost t) (r : Result) : (deliver r s).SameToHost (deliver r t) := by
  obtain ⟨phase, cnt, inputs, trace, results, regs⟩ := h
  exact ⟨phase, cnt, inputs, trace, congrArg (List.cons r) results, regs⟩

theorem withInputs (h : s.SameToHost t) (q : List Request) : (withInputs q s).SameToHost (withInputs q t) := by
  obtain ⟨phase, cnt, -, trace, results, regs⟩ := h
  exact ⟨phase, cnt, rfl, trace, results, regs⟩

/-- After a RESET both are in IDLE, where the contents do not count. -/
theorem resetCore (h : s.SameToHost t) : (resetCore s).SameToHost (resetCore t) := by
  obtain ⟨-, -, inputs, trace, results, -⟩ := h
  exact ⟨rfl, rfl, inputs, trace, results, fun ph => absurd rfl ph⟩

theorem loadCore (h : s.SameToHost t) (key : KeyBus) (iv : IvBus) :
    (loadCore key iv s).SameToHost (loadCore key iv t) := by
  obtain ⟨-, -, inputs, trace, results, -⟩ := h
  exact ⟨rfl, rfl, inputs, trace, results, fun _ => ⟨rfl, rfl⟩⟩

theorem warmCore (h : s.SameToHost t) (init : s.phase = .init) : (warmCore s).SameToHost (warmCore t) := by
  obtain ⟨hL, hN⟩ := h.regs_eq (by simp [init])
  obtain ⟨phase, cnt, inputs, trace, results, -⟩ := h
  refine ⟨?_, ?_, inputs, trace, results, fun _ => ⟨?_, ?_⟩⟩
  · rw [warmCore_phase, warmCore_phase, cnt, phase]
  · rw [warmCore_cnt, warmCore_cnt, cnt]
  · rw [warmCore_L, warmCore_L, hL, hN]
  · rw [warmCore_N, warmCore_N, hL, hN]

theorem generateCore (h : s.SameToHost t) (run : s.phase = .run) :
    (generateCore s).SameToHost (generateCore t) := by
  obtain ⟨hL, hN⟩ := h.regs_eq (by simp [run])
  obtain ⟨phase, cnt, inputs, trace, results, -⟩ := h
  refine ⟨phase, cnt, inputs, trace, results, fun _ => ⟨?_, ?_⟩⟩
  · rw [generateCore_L, generateCore_L, hL, hN]
  · rw [generateCore_N, generateCore_N, hL, hN]

/-- The same vector at both pins: the same line of R53 applies, since it is chosen by phase and vector. -/
theorem edge {w : InputVector} {s' t' : State} (h : s.SameToHost t) (e : Edge w s s') (f : Edge w t t') :
    s'.SameToHost t' := by
  have phase := h.phase_eq
  cases e with
  | reset rst =>
    obtain rfl := f.unique (.reset rst)
    exact h.resetCore.observed _ _
  | warm rst ph =>
    obtain rfl := f.unique (.warm rst (phase ▸ ph))
    exact (h.warmCore ph).observed _ _
  | nop rst ph cmd =>
    obtain rfl := f.unique (.nop rst (phase ▸ ph) cmd)
    exact h.observed _ _
  | loadKeyLen rst ph cmd len =>
    obtain rfl := f.unique (.loadKeyLen rst (phase ▸ ph) cmd len)
    exact h.observed _ _
  | loadIvLen rst ph cmd len ivlen =>
    obtain rfl := f.unique (.loadIvLen rst (phase ▸ ph) cmd len ivlen)
    exact h.observed _ _
  | loadAccepted rst ph cmd len ivlen =>
    obtain rfl := f.unique (.loadAccepted rst (phase ▸ ph) cmd len ivlen)
    exact (h.loadCore _ _).observed _ _
  | next rst ph cmd =>
    obtain rfl := f.unique (.next rst (phase ▸ ph) cmd)
    obtain ⟨hL, hN⟩ := h.regs_eq (by simp [ph])
    rw [hL, hN]
    exact (h.generateCore ph).observed _ _
  | nextIdle rst ph cmd =>
    obtain rfl := f.unique (.nextIdle rst (phase ▸ ph) cmd)
    exact h.observed _ _
  | rsvd rst ph cmd =>
    obtain rfl := f.unique (.rsvd rst (phase ▸ ph) cmd)
    exact h.observed _ _

theorem next_edge (h : s.SameToHost t) : (presentNext s).SameToHost (presentNext t) :=
  h.edge (edge_presentNext s) (edge_presentNext t)

theorem nop_edges (h : s.SameToHost t) (k : Nat) : (presentNop^[k] s).SameToHost (presentNop^[k] t) := by
  induction k generalizing s t with
  | zero => exact h
  | succ k ih => exact ih (h.edge (edge_presentNop s) (edge_presentNop t))

theorem next_edges (h : s.SameToHost t) (k : Nat) : (presentNext^[k] s).SameToHost (presentNext^[k] t) := by
  induction k generalizing s t with
  | zero => exact h
  | succ k ih => exact ih h.next_edge

theorem streamBits_eq (h : s.SameToHost t) (n : Nat) : streamBits n s = streamBits n t := by
  induction n generalizing s t with
  | zero => rfl
  | succ n ih => rw [streamBits, streamBits, h.zOut_eq, ih h.next_edge]

end State.SameToHost

/-! ## Macro-operations a host cannot tell apart -/

/-- The same result, handed back from states a host cannot tell apart. -/
def SameReturn (p q : State × Result) : Prop := p.1.SameToHost q.1 ∧ p.2 = q.2

theorem SameReturn.returned {p q : State × Result} (h : SameReturn p q) : SameOutcome (returned p) (returned q) := by
  obtain ⟨states, result⟩ := h
  unfold Machine.returned
  rw [result]
  exact states.deliver _

namespace State.SameToHost

variable {s t : State} (h : s.SameToHost t)

include h

theorem nextBitOp_same : SameReturn (nextBitOp s) (nextBitOp t) := by
  unfold nextBitOp
  rw [h.ready_eq, h.zOut_eq]
  split
  · exact ⟨h.next_edge, rfl⟩
  · exact ⟨h, rfl⟩

theorem nextBytesOp_same (n : Nat) (o : Option Nat) : SameReturn (nextBytesOp n o s) (nextBytesOp n o t) := by
  unfold nextBytesOp
  rw [h.ready_eq, h.streamBits_eq]
  split_ifs
  · exact ⟨h, rfl⟩
  · exact ⟨h, rfl⟩
  · exact ⟨h.next_edges _, rfl⟩

theorem initialiseOp_same (K V : List Byte) : SameReturn (initialiseOp K V s) (initialiseOp K V t) := by
  have load := h.edge (edge_presentLoad (lenField K.length) (lenField V.length) (keyBus K) (ivBus V) s)
    (edge_presentLoad _ _ _ _ t)
  unfold initialiseOp
  dsimp only
  rw [respAt_congr h.phase_eq]
  split_ifs
  · exact ⟨load, rfl⟩
  · exact ⟨load, rfl⟩
  · exact ⟨load.nop_edges _, rfl⟩

theorem processOp_same (K V B : List Byte) (o : Option Nat) :
    SameReturn (processOp K V B o s) (processOp K V B o t) := by
  obtain ⟨loaded, -⟩ := h.initialiseOp_same K V
  obtain ⟨states, result⟩ := loaded.nextBytesOp_same B.length none
  unfold processOp
  split_ifs
  · exact ⟨h, rfl⟩
  · exact ⟨h, rfl⟩
  · exact ⟨h, rfl⟩
  · generalize nextBytesOp B.length none (initialiseOp K V s).1 = p at states result ⊢
    generalize nextBytesOp B.length none (initialiseOp K V t).1 = q at states result ⊢
    obtain ⟨u, r⟩ := p
    obtain ⟨v, r'⟩ := q
    obtain rfl : r = r' := result
    cases r <;> exact ⟨states, rfl⟩

theorem exec_call_same (m : MacroCall) : SameOutcome (exec m.toInstr s) (exec m.toInstr t) := by
  cases m with
  | initialise K V => exact (h.initialiseOp_same K V).returned
  | wait => exact (h.nop_edges _).deliver _
  | nextBit => exact h.nextBitOp_same.returned
  | nextBytes n o => exact (h.nextBytesOp_same n o).returned
  | process K V B o => exact (h.processOp_same K V B o).returned

end State.SameToHost

/-- Settles O40: both take the same request, and neither an edge nor a macro-operation tells the two states apart. -/
theorem resetContentsUnobservable : Obligations.ResetContentsUnobservable := by
  intro s t h
  have inputs := h.inputs_eq
  cases hq : t.inputs with
  | nil =>
    rw [step_end (inputs.trans hq), step_end hq]
    exact rfl
  | cons q rest =>
    have ahead := h.withInputs rest
    cases q with
    | vector w =>
      rw [step_vector (inputs.trans hq), step_vector hq]
      obtain ⟨s', exec_s, e⟩ := exec_decode_edge w (withInputs rest s)
      obtain ⟨t', exec_t, f⟩ := exec_decode_edge w (withInputs rest t)
      rw [withInputs_phase] at exec_s exec_t
      rw [exec_s, exec_t]
      exact ahead.edge e f
    | call m =>
      rw [step_call (inputs.trans hq), step_call hq]
      exact ahead.exec_call_same m

end Sys2Proof.Machine

/-! PROOFS. The shift and the networks (spec/40_networks.md): `shift` as bits and as a number, the taps of the three
networks, and the four functions as instructions. -/

namespace Sys2Proof.Machine

/-! ## SHIFT (R42) -/

theorem shift_toNat (X : Register) (b : Bool) : (shift X b).toNat = X.toNat / 2 + b.toNat * 2 ^ 127 := by
  have fits : X.toNat / 2 < 2 ^ 127 := by have := X.isLt; omega
  rw [shift, BitVec.toNat_cons', BitVec.extractLsb'_toNat, Nat.shiftRight_eq_div_pow, pow_one, Nat.mod_eq_of_lt fits,
    Nat.shiftLeft_eq, Nat.add_comm]

/-- After shifting in `bs`, bit `i` is the bit of the register that stood above it by as many positions, or a bit of
`bs` where the register had none. -/
theorem foldl_shift_getLsbD (bs : List Bool) (X : Register) {i : Nat} (hi : i < 128) :
    (bs.foldl shift X).getLsbD i =
      if i + bs.length < 128 then X.getLsbD (i + bs.length) else bs.getD (i + bs.length - 128) false := by
  induction bs generalizing X with
  | nil => simp [hi]
  | cons b bs ih =>
    rw [List.foldl_cons, ih, List.length_cons, ← Nat.add_assoc]
    rcases Nat.lt_trichotomy (i + bs.length) 127 with inside | last | past
    · rw [if_pos (by omega), if_pos (by omega), shift_getLsbD, if_neg (by omega), decide_eq_true inside,
        Bool.true_and]
    · rw [if_pos (by omega), if_neg (by omega), shift_getLsbD, if_pos last, last]
      rfl
    · rw [if_neg (by omega), if_neg (by omega),
        show i + bs.length + 1 - 128 = (i + bs.length - 128) + 1 by omega, List.getD_cons_succ]

/-- Settles O10: the bits of one shift, its number, and 128 shifts, which leave nothing of the register. -/
theorem shiftMovesEveryBit : Obligations.ShiftMovesEveryBit := by
  refine ⟨fun X b => ⟨fun i hi => ?_, ?_, shift_toNat X b⟩, fun X bs len i hi => ?_, by decide, by decide, by decide⟩
  · rw [shift_getLsbD, if_neg (by omega), decide_eq_true hi, Bool.true_and]
  · rw [shift_getLsbD, if_pos rfl]
  · rw [foldl_shift_getLsbD bs X hi, len, if_neg (by omega), Nat.add_sub_cancel]

/-- Settles O11: either register is written by name and nothing else. -/
theorem shiftInstruction : Obligations.ShiftInstruction := fun _ _ => ⟨rfl, rfl⟩

/-- Without a reset and an accepted LOAD an edge clocks both registers, mixed in INIT and unmixed for a NEXT in RUN,
or leaves both (R42, R52). -/
theorem Edge.regs {w : InputVector} {s t : State} (e : Edge w s t) (rst : iwRst w = false)
    (unaccepted : ¬ AcceptedLoad s w) :
    (s.phase = .init ∧ (t.L, t.N) = iclk (s.L, s.N))
      ∨ (s.phase = .run ∧ iwCmd w = .next ∧ (t.L, t.N) = gclk (s.L, s.N))
      ∨ (s.phase ≠ .init ∧ ¬ (s.phase = .run ∧ iwCmd w = .next) ∧ t.L = s.L ∧ t.N = s.N) := by
  cases e with
  | reset rst' => simp [rst] at rst'
  | warm _ init => exact .inl ⟨init, rfl⟩
  | next _ run cmd => exact .inr (.inl ⟨run, cmd, rfl⟩)
  | loadAccepted _ ph cmd len ivlen => exact absurd ⟨rst, ph, cmd, len, ivlen⟩ unaccepted
  | nextIdle _ idle => exact .inr (.inr ⟨by simp [idle], by simp [idle], rfl, rfl⟩)
  | nop _ ph cmd | loadKeyLen _ ph cmd | loadIvLen _ ph cmd | rsvd _ ph cmd =>
    exact .inr (.inr ⟨ph, by simp [cmd], rfl, rfl⟩)

/-- Settles O12: both clocks are a shift of both registers. -/
theorem registersOnlyShiftBetweenLoads : Obligations.RegistersOnlyShiftBetweenLoads := by
  intro s t w ht rst unaccepted
  rcases (edge_of_exec_decode ht).regs rst unaccepted with ⟨-, mixed⟩ | ⟨-, -, unmixed⟩ | ⟨-, -, hL, hN⟩
  · rw [iclk_eq, Prod.mk.injEq] at mixed
    exact .inr ⟨_, _, mixed⟩
  · rw [gclk_eq, Prod.mk.injEq] at unmixed
    exact .inr ⟨_, _, unmixed⟩
  · exact .inl ⟨hL, hN⟩

/-! ## The taps of a single bit -/

/-- Of distinct taps, a single bit meets at most one. -/
theorem foldl_xor_taps (i : Nat) {taps : List Nat} (distinct : taps.Nodup) (b : Bool) :
    (taps.map fun k => decide (i = k)).foldl Bool.xor b = (b ^^ decide (i ∈ taps)) := by
  induction taps generalizing b with
  | nil => simp
  | cons k ks ih =>
    obtain ⟨fresh, distinct'⟩ := List.nodup_cons.1 distinct
    rw [List.map_cons, List.foldl_cons, ih distinct']
    by_cases hit : i = k
    · subst hit
      simp [fresh]
    · simp [hit]

/-- A sum of taps is linear. -/
theorem foldl_xor_map_xor (f g : Nat → Bool) (taps : List Nat) (a b : Bool) :
    (taps.map fun k => f k ^^ g k).foldl Bool.xor (a ^^ b) =
      ((taps.map f).foldl Bool.xor a ^^ (taps.map g).foldl Bool.xor b) := by
  have swap (a b c d : Bool) : ((a ^^ b) ^^ (c ^^ d)) = ((a ^^ c) ^^ (b ^^ d)) := by decide +revert
  induction taps generalizing a b with
  | nil => rfl
  | cons k ks ih =>
    rw [List.map_cons, List.foldl_cons, swap, ih]
    rfl

theorem twoPow_getLsbD {i : Nat} (hi : i < 128) (k : Nat) : (BitVec.twoPow 128 i).getLsbD k = decide (i = k) := by
  rw [BitVec.getLsbD_twoPow, decide_eq_true hi, Bool.true_and]

theorem twoPow_taps {i : Nat} (hi : i < 128) {taps : List Nat} (distinct : taps.Nodup) :
    (taps.map (BitVec.twoPow 128 i).getLsbD).foldl Bool.xor false = decide (i ∈ taps) := by
  rw [List.map_congr_left fun k _ => twoPow_getLsbD hi k, foldl_xor_taps i distinct, Bool.false_xor]

/-! ## FL (R43) -/

theorem exec_fl (s : State) : exec .fl s = .next (setWire (fL s.L) s) := rfl

theorem fL_eq_taps (L : Register) : fL L = ([0, 7, 38, 70, 81, 96].map L.getLsbD).foldl Bool.xor false := by
  simp only [fL, List.map_cons, List.map_nil, List.foldl_cons, List.foldl_nil, Bool.false_xor]

theorem fL_xor (A B : Register) : fL (A ^^^ B) = (fL A ^^ fL B) := by
  rw [fL_eq_taps, List.map_congr_left fun k _ => BitVec.getLsbD_xor, ← Bool.false_xor false, foldl_xor_map_xor,
    ← fL_eq_taps, ← fL_eq_taps]

/-- Settles O13: the formula is the definition; a single bit counts exactly where it is a tap. -/
theorem linearFeedback : Obligations.LinearFeedback := by
  refine ⟨exec_fl, exec_fl, by decide, by decide, fun i hi => ?_, fL_xor, by decide⟩
  rw [fL_eq_taps, twoPow_taps hi (by decide)]

/-! ## FN (R45) -/

theorem fN_congr_L {L L' : Register} (N : Register) (h : L.getLsbD 0 = L'.getLsbD 0) : fN L N = fN L' N := by
  rw [fN, fN, fNBase, fNBase, h]

theorem fN_zero_right (L : Register) : fN L 0 = L.getLsbD 0 := by
  simp [fN, fNBase, fNAndTerms]

theorem fNBase_eq_taps (L N : Register) :
    fNBase L N = (([0, 26, 56, 91, 96].map N.getLsbD).foldl Bool.xor false ^^ L.getLsbD 0) := by
  simp only [fNBase, List.map_cons, List.map_nil, List.foldl_cons, List.foldl_nil, Bool.false_xor]

/-- A single bit makes no product of two different ones. -/
theorem fNAndTerms_twoPow {i : Nat} (hi : i < 128) : fNAndTerms (BitVec.twoPow 128 i) = false := by
  have product {a b : Nat} (ab : a ≠ b) :
      ((BitVec.twoPow 128 i).getLsbD a && (BitVec.twoPow 128 i).getLsbD b) = false := by
    rw [twoPow_getLsbD hi, twoPow_getLsbD hi, Bool.and_eq_false_iff, decide_eq_false_iff_not, decide_eq_false_iff_not]
    omega
  unfold fNAndTerms
  repeat rw [product (by decide)]
  rfl

/-- Settles O15: the formula is the definition; of a single bit only the base is left, which counts its taps. -/
theorem nonlinearFeedback : Obligations.NonlinearFeedback := by
  refine ⟨fun _ => rfl, fun _ _ => rfl, fun _ _ N h => fN_congr_L N h, by decide, by decide, fN_zero_right,
    fun i hi => ?_, by decide⟩
  rw [fN, fNAndTerms_twoPow hi, Bool.xor_false, fNBase_eq_taps, twoPow_taps hi (by decide)]
  exact Bool.xor_false _

/-! ## Z (R46) -/

theorem z_zero_left (N : Register) :
    z 0 N = (N.getLsbD 2 ^^ N.getLsbD 15 ^^ N.getLsbD 36 ^^ N.getLsbD 45 ^^ N.getLsbD 64 ^^ N.getLsbD 73
      ^^ N.getLsbD 89) := by
  simp [z]

theorem z_zero_right (L : Register) :
    z L 0 = (L.getLsbD 93 ^^ (L.getLsbD 13 && L.getLsbD 20) ^^ (L.getLsbD 60 && L.getLsbD 79)) := by
  simp [z]

/-- Settles O16: the formula is the definition; with one register 0 the terms of the other are left. -/
theorem outputFilter : Obligations.OutputFilter :=
  ⟨fun _ => rfl, fun _ _ => rfl, by decide, by decide, z_zero_left, z_zero_right, by decide, by decide⟩

end Sys2Proof.Machine

/-! PROOFS. The clocks (spec/41_clocking.md): the warm-up step and the generation-clock as instructions, and the phase
in which each is applied. -/

namespace Sys2Proof.Machine

theorem exec_iclk (c : Cmd) (s : State) : exec (.iclk c) s = .next (presentCommand c s) := rfl

theorem exec_gclk (s : State) : exec .gclk s = .next (presentNext s) := rfl

theorem exec_next (s : State) : exec .next s = .next (presentNext s) := rfl

theorem exec_load (klen ivlen : LenField) (key : KeyBus) (iv : IvBus) (s : State) :
    exec (.load klen ivlen key iv) s = .next (presentLoad klen ivlen key iv s) := rfl

/-- In INIT the row of ICLK is the warm-up step (R49, R57). -/
theorem exec_iclk_of_init {s : State} (c : Cmd) (init : s.phase = .init) :
    exec (.iclk c) s = .next (warmUp c s) := by
  rw [exec_iclk, presentCommand_of_init init]

/-- Settles O17: the warm-up step, its phase written with the INIT it starts from. -/
theorem initClockStep : Obligations.InitClockStep := by
  intro s c init
  rw [exec_iclk_of_init c init, warmUp, warmCore, init]
  rfl

/-- Settles O18: each of these rows is in INIT the warm-up step with its command. -/
theorem warmUpWhateverTheCommand : Obligations.WarmUpWhateverTheCommand := by
  intro s init
  simp only [exec_iclk_of_init _ init]
  refine ⟨?_, ?_, ?_, ?_, fun klen ivlen key iv => ?_⟩
  · rw [exec_nop, presentNop_of_init init]
  · rw [exec_next, presentNext_of_init init]
  · rw [exec_gclk, presentNext_of_init init]
  · rw [exec_rsvd, presentRsvd_of_init init]
  · rw [exec_load, presentLoad_of_init init]

/-- Settles O19: GCLK in RUN is the accepted NEXT. -/
theorem generationClockStep : Obligations.GenerationClockStep := by
  intro s run
  rw [exec_gclk, presentNext_of_run run]
  rfl

/-- Settles O20: the three cases of an edge's registers exclude each other by phase and command. -/
theorem clockModesAndPhases : Obligations.ClockModesAndPhases := by
  refine ⟨mixedClock_false, fun _ => rfl, fun s t w ht rst unaccepted => ?_⟩
  rcases (edge_of_exec_decode ht).regs rst unaccepted with ⟨ph, mixed⟩ | ⟨ph, cmd, unmixed⟩ | ⟨ph, held, hL, hN⟩
  · simp [ph, mixed]
  · simp [ph, cmd, unmixed]
  · exact ⟨fun init => absurd init ph, fun run cmd => absurd ⟨run, cmd⟩ held, fun _ _ => ⟨hL, hN⟩, fun _ => ⟨hL, hN⟩⟩

end Sys2Proof.Machine

/-! PROOFS. The commands, continued (spec/42_commands.md, spec/70_reset_and_hazards.md section 1): RESET, LOAD bit by
bit, NEXT, and the two clock rows outside their phase. -/

namespace Sys2Proof.Machine

/-! ## RESET (R16, R87) -/

theorem exec_reset (s : State) : exec .reset s = .next (presentReset s) := rfl

/-- Settles O21: RESET reads only the number of its draw, and leaves IDLE, where a NEXT is refused. -/
theorem resetFromAnyState : Obligations.ResetFromAnyState := by
  refine fun s => ⟨_, exec_reset s, rfl, rfl, rfl, rfl, ?_⟩
  rw [exec_next, presentNext_of_idle rfl]
  rfl

/-- Settles O22: the reset state is written as RESET writes it, with draw 0. -/
theorem resetState : Obligations.ResetState := by
  refine ⟨rfl, rfl, rfl, rfl, rfl, fun s t draws ht => ?_⟩
  cases ht
  exact ⟨⟨congrArg Config.resetL draws, congrArg Config.resetN draws, rfl, rfl⟩, congrArg (· + 1) draws⟩

/-! ## LOAD (R20, R21, R55) -/

theorem exec_load_accepted {s : State} (key : KeyBus) (iv : IvBus) (ph : s.phase ≠ .init) :
    exec (.load 16 12 key iv) s = .next (observed .ok none (loadCore key iv s)) := by
  rw [exec_load, presentLoad_accepted ph]

/-- The padding stands above the IV, so the number is their disjunction (R55). -/
theorem loadedL_eq_or (iv : IvBus) : loadedL iv = BitVec.ofNat 128 (iv.toNat ||| 0xFFFFFFFF <<< 96) := by
  refine BitVec.eq_of_toNat_eq ?_
  have fits : iv.toNat ||| 0xFFFFFFFF <<< 96 < 2 ^ 128 :=
    Nat.or_lt_two_pow (by have := iv.isLt; omega) (by decide)
  rw [loadedL, BitVec.toNat_append, BitVec.toNat_ofNat _ 128, Nat.mod_eq_of_lt fits, Nat.or_comm]
  rfl

/-- Settles O24: an accepted LOAD, with L as a number. -/
theorem loadAccepted : Obligations.LoadAccepted := by
  intro s key iv ph
  rw [exec_load_accepted key iv ph, ← loadedL_eq_or]
  rfl

/-- A bus as wide as its byte string carries bit `i mod 8` of byte `i div 8` at `i` (R19). -/
theorem ofNat_bitsValue_getLsbD (B : List Byte) {w i : Nat} (hi : i < w) :
    (BitVec.ofNat w (bitsValue (expand B))).getLsbD i = (B.getD (i / 8) 0).getLsbD (i % 8) := by
  rw [BitVec.getLsbD_ofNat, decide_eq_true hi, Bool.true_and, bitsValue_testBit, expand_getD, expandBit]

theorem keyBus_getLsbD {K : List Byte} (hK : K.length = 16) {i : Nat} (hi : i < 128) :
    (keyBus K).getLsbD i = (K.getD (i / 8) 0).getLsbD (i % 8) := by
  rw [keyBus, if_pos hK, ofNat_bitsValue_getLsbD K hi]

theorem ivBus_getLsbD {V : List Byte} (hV : V.length = 12) {i : Nat} (hi : i < 96) :
    (ivBus V).getLsbD i = (V.getD (i / 8) 0).getLsbD (i % 8) := by
  rw [ivBus, if_pos hV, ofNat_bitsValue_getLsbD V hi]

theorem loadedL_getLsbD_low (iv : IvBus) {i : Nat} (hi : i < 96) : (loadedL iv).getLsbD i = iv.getLsbD i := by
  rw [loadedL, BitVec.getLsbD_append, if_pos hi]

theorem loadedL_getLsbD_high (iv : IvBus) {i : Nat} (hi : i < 128) (high : 96 ≤ i) :
    (loadedL iv).getLsbD i = true := by
  have ones : Config.padding = BitVec.allOnes 32 := by decide
  rw [loadedL, BitVec.getLsbD_append, if_neg (by omega), ones, BitVec.getLsbD_allOnes, decide_eq_true (by omega)]

/-- Settles O25: N is the key bus, and L the IV bus with ones above it. -/
theorem loadPlacesEveryBit : Obligations.LoadPlacesEveryBit := by
  intro s K V hK hV ph
  refine ⟨_, exec_load_accepted (keyBus K) (ivBus V) ph, fun i hi => keyBus_getLsbD hK hi, fun i hi => ?_,
    fun i hi high => loadedL_getLsbD_high (ivBus V) hi high⟩
  rw [observed_L, loadCore_L, loadedL_getLsbD_low _ hi, ivBus_getLsbD hV hi]

/-- Settles O26: the key length is looked at first. -/
theorem loadRefused : Obligations.LoadRefused := by
  refine fun s klen ivlen key iv ph => ⟨fun hk => ?_, fun hv => ?_⟩
  · rw [exec_load, presentLoad_keyLen ph hk, refuseCommand]
  · rw [exec_load, presentLoad_ivLen ph hv, refuseCommand]

/-! ## NEXT (R58) -/

/-- Settles O27: in RUN `z_out` is the filter bit, and NEXT takes it and generates. -/
theorem nextConsumesOneBit : Obligations.NextConsumesOneBit := by
  refine fun s run => ⟨zOut_of_run run, ?_⟩
  rw [exec_next, presentNext_of_run run, zOut_of_run run]
  rfl

/-- Settles O28: in IDLE there is no keystream to take from. -/
theorem nextRefusedInIdle : Obligations.NextRefusedInIdle := by
  intro s idle
  rw [exec_next, presentNext_of_idle idle, refuseCommand]

/-! ## The clock rows outside their phase (log entry 5) -/

/-- Settles O30: ICLK presents its command, and the LOAD of zero fields has a wrong key length. -/
theorem clockRowsOutsideTheirPhase : Obligations.ClockRowsOutsideTheirPhase := by
  refine ⟨fun s ph => ⟨rfl, rfl, rfl, ?_⟩, fun _ => rfl⟩
  rw [exec_iclk, presentCommand, presentLoad_keyLen ph (by decide), refuseCommand]

end Sys2Proof.Machine

/-! PROOFS. Responses and refusals (spec/60_exceptions.md): the observation of an edge, the priority of the conditions,
and what a refusal leaves as it was. -/

namespace Sys2Proof.Machine

/-! ## The observation of an edge (R60, R97) -/

/-- An edge adds one observation: the response of the port, the bit a NEXT in RUN takes, and the outputs after it. -/
theorem Edge.trace_eq {w : InputVector} {s t : State} (e : Edge w s t) :
    t.trace = {
      resp := respAt s w
      taken := if iwRst w = false ∧ s.phase = .run ∧ iwCmd w = .next then some (z s.L s.N) else none
      ready := ready t, busy := busy t, zOut := zOut t } :: s.trace := by
  obtain ⟨r, b, trace⟩ := e.trace
  have resp : r = respAt s w := e.resp trace
  have taken : b = if iwRst w = false ∧ s.phase = .run ∧ iwCmd w = .next then some (z s.L s.N) else none := by
    cases e with
    | next rst run cmd =>
      cases trace
      rw [if_pos ⟨rst, run, cmd⟩]
    | reset rst => cases trace; simp [rst]
    | warm _ ph | nextIdle _ ph => cases trace; simp [ph]
    | nop _ _ cmd | loadKeyLen _ _ cmd | loadIvLen _ _ cmd | loadAccepted _ _ cmd | rsvd _ _ cmd =>
      cases trace; simp [cmd]
  rw [trace, resp, taken]

/-- Settles O32: the one observation every edge adds. -/
theorem observationOfAnEdge : Obligations.ObservationOfAnEdge := by
  intro s w
  obtain ⟨t, exec_t, e⟩ := exec_decode_edge w s
  exact ⟨t, exec_t, e.trace_eq⟩

/-! ## Priority (R77) -/

/-- Settles O33: at the pins the response of the port, and for each macro-operation its checks in order. -/
theorem priorityOfConditions : Obligations.PriorityOfConditions := by
  refine ⟨fun s w => ?_, fun s ph => ⟨?_, fun n o => ?_⟩, fun s n k run hk => ?_, fun s K V B o hK => ?_,
    fun s K V B o hK hV => ?_, fun s K V B k hK hV hk => ?_, fun s K V ph hK => ?_, fun s K V ph hK hV => ?_⟩
  · obtain ⟨t, exec_t, e⟩ := exec_decode_edge w s
    exact ⟨t, _, exec_t, e.trace_eq, rfl⟩
  · rw [exec_nextBit, nextBitOp_notReady ph]; rfl
  · rw [exec_nextBytes, nextBytesOp_notReady n o ph]; rfl
  · rw [exec_nextBytes, nextBytesOp_bufLen run hk]; rfl
  · rw [exec_process, processOp_keyLen V B o s hK]; rfl
  · rw [exec_process, processOp_ivLen B o s hK hV]; rfl
  · rw [exec_process, processOp_bufLen s hK hV hk]; rfl
  · rw [exec_initialise, initialiseOp_keyLen V ph hK]; rfl
  · rw [exec_initialise, initialiseOp_ivLen ph hK hV]; rfl

/-! ## What a refusal leaves (R76, R94) -/

/-- Outside INIT an edge whose response is not OK is the shared refusal with that code. -/
theorem Edge.eq_observed_of_refused {w : InputVector} {s t : State} (e : Edge w s t) (ph : s.phase ≠ .init)
    (refused : respAt s w ≠ .ok) : t = observed (respAt s w) none s := by
  obtain ⟨r, b, trace⟩ := e.trace
  have resp : r = respAt s w := e.resp trace
  rw [← resp] at refused ⊢
  cases e with
  | reset | nop | loadAccepted | next => cases trace; exact absurd rfl refused
  | warm _ init => exact absurd init ph
  | loadKeyLen | loadIvLen | nextIdle | rsvd => cases trace; rfl

theorem outlen_cases (n : Nat) (o : Option Nat) : (o = none ∨ o = some n) ∨ ∃ k, k ≠ n ∧ o = some k := by
  cases o with
  | none => exact .inl (.inl rfl)
  | some k =>
    by_cases right : k = n
    · exact .inl (.inr (congrArg some right))
    · exact .inr ⟨k, right, rfl⟩

/-- Either the operation hands back no error, or it leaves the core of the state it was called in. -/
def ErrorLeavesCore (s : State) (p : State × Result) : Prop := ∀ e, p.2 = .error e → p.1.SameCore s

theorem ErrorLeavesCore.of_core {s t : State} (r : Result) (same : t.SameCore s) : ErrorLeavesCore s (t, r) :=
  fun _ _ => same

theorem initialiseOp_errorLeavesCore {s : State} (K V : List Byte) (ph : s.phase ≠ .init) :
    ErrorLeavesCore s (initialiseOp K V s) := by
  by_cases hK : K.length = 16
  · by_cases hV : V.length = 12
    · rw [initialiseOp_accepted ph hK hV]
      exact nofun
    · rw [initialiseOp_ivLen ph hK hV]
      exact .of_core _ ⟨rfl, rfl, rfl, rfl⟩
  · rw [initialiseOp_keyLen V ph hK]
    exact .of_core _ ⟨rfl, rfl, rfl, rfl⟩

theorem nextBitOp_errorLeavesCore (s : State) : ErrorLeavesCore s (nextBitOp s) := by
  unfold nextBitOp
  split
  · exact nofun
  · exact .of_core _ ⟨rfl, rfl, rfl, rfl⟩

theorem nextBytesOp_errorLeavesCore (n : Nat) (o : Option Nat) (s : State) :
    ErrorLeavesCore s (nextBytesOp n o s) := by
  unfold nextBytesOp
  split_ifs
  · exact .of_core _ ⟨rfl, rfl, rfl, rfl⟩
  · exact .of_core _ ⟨rfl, rfl, rfl, rfl⟩
  · exact nofun

theorem processOp_errorLeavesCore {s : State} (K V B : List Byte) (o : Option Nat) (ph : s.phase ≠ .init) :
    ErrorLeavesCore s (processOp K V B o s) := by
  by_cases hK : K.length = 16
  · by_cases hV : V.length = 12
    · rcases outlen_cases B.length o with ho | ⟨k, hk, rfl⟩
      · rw [processOp_accepted ph hK hV ho]
        exact nofun
      · rw [processOp_bufLen s hK hV hk]
        exact .of_core _ ⟨rfl, rfl, rfl, rfl⟩
    · rw [processOp_ivLen B o s hK hV]
      exact .of_core _ ⟨rfl, rfl, rfl, rfl⟩
  · rw [processOp_keyLen V B o s hK]
    exact .of_core _ ⟨rfl, rfl, rfl, rfl⟩

/-- What is handed back on top of the earlier results is what the operation answered. -/
theorem ErrorLeavesCore.returned {s t : State} {p : State × Result} {e : MacroError} (h : ErrorLeavesCore s p)
    (ht : returned p = .next t) (error : t.results = .error e :: s.results) : t.SameCore s := by
  cases ht
  exact h e (List.cons.inj error).1

/-- Settles O34: a refused edge is the shared refusal, and a macro-operation that answers an error leaves the core. -/
theorem refusalChangesNothing : Obligations.RefusalChangesNothing := by
  refine ⟨fun s w ph refused => ?_, fun s t m e ph ht error => ?_⟩
  · obtain ⟨t, exec_t, edge⟩ := exec_decode_edge w s
    rw [exec_t, edge.eq_observed_of_refused ph refused]
  · cases m with
    | initialise K V => exact (initialiseOp_errorLeavesCore K V ph).returned ht error
    | wait => cases ht; cases (List.cons.inj error).1
    | nextBit => exact (nextBitOp_errorLeavesCore s).returned ht error
    | nextBytes n o => exact (nextBytesOp_errorLeavesCore n o s).returned ht error
    | process K V B o => exact (processOp_errorLeavesCore K V B o ph).returned ht error

end Sys2Proof.Machine

/-! PROOFS. The length of the warm-up (spec/42_commands.md section 5). -/

namespace Sys2Proof.Machine

/-- Settles O42: the vectors after the LOAD are that many init-clocks, and the outputs follow the phase. -/
theorem warmUpIsExactly256 : Obligations.WarmUpIsExactly256 := by
  intro s key iv ws ph len rst
  obtain ⟨t, edges, run⟩ := runSteps_vectors (loadVector 16 12 key iv :: ws) s
  obtain ⟨regs, cnt, phase⟩ := warmedBy_of_load ph len rst edges
  refine ⟨withInputs [] t, run, regs, cnt, fun short => ?_, fun full => ?_⟩
  · rw [if_neg (by omega)] at phase
    simp [ready, busy, zOut, phase]
  · rw [if_pos full] at phase
    simp [ready, busy, zOut, phase]

end Sys2Proof.Machine

/-! PROOFS. The macro-operations (spec/43_macros.md sections 1 to 4): what each leaves where it raises nothing, and
that it does what its expansion does. -/

namespace Sys2Proof.Machine

/-! ## INITIALIZE and WAIT (R61) -/

theorem initialiseOp_done {s : State} {K V : List Byte} (ph : s.phase ≠ .init) (hK : K.length = 16)
    (hV : V.length = 12) : (initialiseOp K V s).2 = .done := by
  rw [initialiseOp_accepted ph hK hV]

/-- Settles O43: the state INITIALIZE leaves, and `done` on top of the earlier results. -/
theorem initialiseCompletes : Obligations.InitialiseCompletes := by
  intro s K V ph hK hV
  obtain ⟨tr, state, len, ok⟩ := initialiseOp_state ph hK hV
  refine ⟨tr, ?_, len, ok⟩
  rw [exec_initialise, initialiseOp_done ph hK hV, state]
  rfl

/-- NOPs in IDLE and RUN change the record of observations only, each adding the same one (R54). -/
theorem nops_hold_state {s : State} (k : Nat) (ph : s.phase ≠ .init) :
    presentNop^[k] s = { s with
      trace := List.replicate k { resp := .ok, taken := none, ready := ready s, busy := busy s, zOut := zOut s }
        ++ s.trace } := by
  induction k with
  | zero => rfl
  | succ k ih =>
    rw [Function.iterate_succ_apply', ih, presentNop_of_ne (by exact ph), List.replicate_succ]
    rfl

/-- Settles O44: NOPs hold outside INIT; in INIT the first ones complete the warm-up. -/
theorem waitCompletes : Obligations.WaitCompletes := by
  refine ⟨fun s ph => ?_, fun s init hc => ?_⟩
  · rw [exec_wait, waitEdges, nops_hold_state _ ph]
    rfl
  · obtain ⟨tr, state, len, ok⟩ := waitEdges_of_init init hc
    refine ⟨tr, ?_, len, ok⟩
    rw [exec_wait, state]
    rfl

/-! ## NEXT_BIT and NEXT_BYTES (R62, R63) -/

theorem nextBitOp_of_run {s : State} (run : s.phase = .run) : nextBitOp s = (presentNext s, .bit (z s.L s.N)) := by
  rw [nextBitOp, if_pos (ready_iff.2 run), zOut_of_run run]

/-- Settles O45: one NEXT, and the filter bit from before it. -/
theorem nextBitCompletes : Obligations.NextBitCompletes := by
  intro s run
  rw [exec_nextBit, nextBitOp_of_run run, presentNext_of_run run]
  rfl

/-- Settles O46: `8n` NEXTs from a state in RUN, as one state. -/
theorem nextBytesCompletes : Obligations.NextBytesCompletes := by
  intro s n o run ho
  obtain ⟨tr, state, len, ok, taken⟩ := nexts_state (8 * n) run
  refine ⟨tr, ?_, len, ok, taken.trans (streamBits_run _ s run)⟩
  rw [exec_nextBytes, nextBytesOp_of_run run ho, state]
  rfl

/-! ## PROCESS (R64) -/

/-- Settles O47: the canonical state INITIALIZE leaves, and `8 len(B)` NEXTs from it. -/
theorem processCompletes : Obligations.ProcessCompletes := by
  intro s K V B o ph hK hV ho
  obtain ⟨tr, state, len, ok⟩ := initialiseOp_state ph hK hV
  obtain ⟨run, -, -⟩ := initialiseOp_ready ph hK hV
  obtain ⟨tr', state', len', ok', -⟩ := nexts_state (8 * B.length) run
  refine ⟨tr' ++ tr, ?_, by simp [len, len', Nat.add_comm], fun a ha => ?_⟩
  · rw [exec_process, processOp_accepted ph hK hV ho, state', state, List.append_assoc]
    rfl
  · exact (List.mem_append.1 ha).elim (ok' a) (ok a)

/-! ## Zero-length requests (R71) -/

theorem process_error_of_wrong_length {K V : List Byte} (s : State) (wrong : K.length ≠ 16 ∨ V.length ≠ 12) :
    ∃ e, processOp K V [] none s = (s, .error e) := by
  by_cases hK : K.length = 16
  · exact ⟨_, processOp_ivLen [] none s hK (wrong.resolve_left (not_not_intro hK))⟩
  · exact ⟨_, processOp_keyLen V [] none s hK⟩

/-- Settles O53: no byte asked for, no NEXT presented. -/
theorem zeroLengthRequests : Obligations.ZeroLengthRequests := by
  refine ⟨fun s run => ?_, fun s K V ph hK hV => ⟨_, exec_initialise K V s, ?_⟩, fun s K V wrong => ?_⟩
  · have empty : streamBytes 0 s = [] := List.eq_nil_of_length_eq_zero (streamBytes_length 0 s)
    rw [exec_nextBytes_of_run 0 run, empty]
    rfl
  · obtain ⟨-, -, kept⟩ := initialiseOp_ready ph hK hV
    rw [exec_process, processOp_accepted ph hK hV (.inl rfl), ← kept]
    generalize initialiseOp K V s = p
    rfl
  · obtain ⟨e, refused⟩ := process_error_of_wrong_length s wrong
    refine ⟨e, ?_⟩
    rw [exec_process, refused]
    rfl

/-! ## The expansions (R41) -/

theorem Edges.append {ws vs : List InputVector} {s t u : State} (e : Edges ws s t) (f : Edges vs t u) :
    Edges (ws ++ vs) s u := by
  induction e with
  | nil => exact f
  | cons head _ ih => exact .cons head (ih f)

theorem Edges.unique {ws : List InputVector} {s t u : State} (e : Edges ws s t) (f : Edges ws s u) : t = u := by
  induction e with
  | nil => cases f; rfl
  | cons head _ ih =>
    cases f with
    | cons head' tail' =>
      obtain rfl := head.unique head'
      exact ih tail'

/-- An edge of one vector, repeated, is the edges of as many of that vector. -/
theorem edges_iterate {w : InputVector} {f : State → State} (edge : ∀ s, Edge w s (f s)) (n : Nat) (s : State) :
    Edges (List.replicate n w) s (f^[n] s) := by
  induction n generalizing s with
  | zero => exact .nil s
  | succ n ih => exact .cons (edge s) (ih (f s))

theorem edges_waitEdges (s : State) : Edges waitVectors s (waitEdges s) :=
  edges_iterate edge_presentNop Config.initClocks s

theorem initialiseVector_of_lengths {K V : List Byte} (hK : K.length = 16) (hV : V.length = 12) :
    initialiseVector K V = loadVector 16 12 (keyBus K) (ivBus V) := by
  rw [initialiseVector, hK, hV]
  rfl

/-- INITIALIZE with the right lengths is the edges of its LOAD and of WAIT. -/
theorem edges_initialiseOp {s : State} {K V : List Byte} (ph : s.phase ≠ .init) (hK : K.length = 16)
    (hV : V.length = 12) : Edges (initialiseVector K V :: waitVectors) s (initialiseOp K V s).1 := by
  have load := edge_presentLoad 16 12 (keyBus K) (ivBus V) s
  rw [presentLoad_accepted ph] at load
  rw [initialiseVector_of_lengths hK hV, initialiseOp_accepted ph hK hV]
  exact .cons load (edges_waitEdges _)

/-- Outside INIT a macro-operation that raises nothing is the edges of its expansion, with a result handed back. -/
theorem exec_call_edges {s : State} {m : MacroCall} (ph : s.phase ≠ .init) (fine : RaisesNothing s m) :
    ∃ t r, exec m.toInstr s = .next (deliver r t) ∧ Edges (expansion m) s t := by
  cases m with
  | initialise K V =>
    obtain ⟨hK, hV⟩ := fine
    exact ⟨_, _, exec_initialise K V s, edges_initialiseOp ph hK hV⟩
  | wait => exact ⟨_, _, exec_wait s, edges_waitEdges s⟩
  | nextBit =>
    refine ⟨_, _, exec_nextBit s, ?_⟩
    rw [nextBitOp_of_run fine]
    exact .cons (edge_presentNext s) (.nil _)
  | nextBytes n o =>
    obtain ⟨run, ho⟩ := fine
    refine ⟨_, _, exec_nextBytes n o s, ?_⟩
    rw [nextBytesOp_of_run run ho]
    exact edges_iterate edge_presentNext (8 * n) s
  | process K V B o =>
    obtain ⟨hK, hV, ho⟩ := fine
    refine ⟨_, _, exec_process K V B o s, ?_⟩
    rw [processOp_accepted ph hK hV ho]
    exact (edges_initialiseOp ph hK hV).append (edges_iterate edge_presentNext (8 * B.length) _)

/-- Settles O48: both are the edges of the same vectors, and a result is no part of the core or the observations. -/
theorem macroRefinesItsExpansion : Obligations.MacroRefinesItsExpansion := by
  intro s m ph fine
  obtain ⟨t, r, exec_m, edges⟩ := exec_call_edges ph fine
  obtain ⟨u, edges', run⟩ := runSteps_vectors (expansion m) s
  obtain rfl := edges.unique edges'
  exact ⟨_, _, exec_m, run, rfl, ⟨rfl, rfl, rfl, rfl⟩, rfl⟩

end Sys2Proof.Machine

/-! PROOFS. The byte forms, continued (spec/20_memory.md R22): the bits of `pack`, and that it inverts `expand`. -/

namespace Sys2Proof.Machine

theorem packByte_getLsbD (s : List Bool) (j : Nat) {i : Nat} (hi : i < 8) :
    (packByte s j).getLsbD i = s.getD (8 * j + i) false := by
  rw [packByte, BitVec.getLsbD_ofNat, decide_eq_true hi, Bool.true_and, bitsValue_testBit]
  simp [hi]

theorem pack_getD {s : List Bool} {n j : Nat} (len : s.length = 8 * n) (hj : j < n) :
    (pack s).getD j 0 = packByte s j := by
  have whole : s.length / 8 = n := by omega
  simp [pack, whole, hj]

/-- Lists of one length whose members agree, read with a default, are one list. -/
theorem list_ext_getD {α : Type} {l l' : List α} (d : α) (len : l.length = l'.length)
    (h : ∀ i < l.length, l.getD i d = l'.getD i d) : l = l' :=
  List.ext_getElem len fun i hi hi' => by
    rw [← List.getD_eq_getElem l d hi, ← List.getD_eq_getElem l' d hi', h i hi]

theorem expand_pack {s : List Bool} {n : Nat} (len : s.length = 8 * n) : expand (pack s) = s := by
  have lengths : (expand (pack s)).length = s.length := by rw [expand_length, pack_length]; omega
  refine list_ext_getD false lengths fun i hi => ?_
  rw [lengths] at hi
  rw [expand_getD, expandBit, pack_getD len (by omega), packByte_getLsbD s _ (by omega), Nat.div_add_mod]

theorem pack_expand (B : List Byte) : pack (expand B) = B := by
  have lengths : (pack (expand B)).length = B.length := by simp
  refine list_ext_getD 0 lengths fun j hj => ?_
  rw [lengths] at hj
  refine BitVec.eq_of_getLsbD_eq fun i hi => ?_
  rw [pack_getD (expand_length B) hj, packByte_getLsbD _ _ hi, expand_getD, expandBit,
    show (8 * j + i) / 8 = j by omega, show (8 * j + i) % 8 = i by omega]

/-- Settles O55: the bits of each packed byte, from which both inverse laws follow bit by bit. -/
theorem packInvertsExpand : Obligations.PackInvertsExpand := by
  refine ⟨fun s n len => ⟨?_, fun j hj i hi => ?_, expand_pack len⟩, pack_expand, by decide⟩
  · rw [pack_length, len, Nat.mul_div_cancel_left n (by decide)]
  · rw [pack_getD len hj, packByte_getLsbD s j hi]

end Sys2Proof.Machine

/-! PROOFS. The two known answers (spec/95_test_vectors.md section 1): the warm-up evaluated in two halves, through the
registers after init-clock 128, and the keystream evaluated from the canonical state. -/

namespace Sys2Proof.Machine

/-- The warm-up in two halves (R57). -/
theorem canonical_of_halves {key : KeyBus} {iv : IvBus} {mid final : Register × Register}
    (first : iclk^[128] (loadedL iv, loadedN key) = mid) (second : iclk^[128] mid = final) :
    canonical key iv = final := by
  rw [canonical, initClocks_eq, ← second, ← first]
  exact Function.iterate_add_apply iclk 128 128 _

/-- A state in RUN with the registers `r`, to evaluate a keystream from. -/
def runningFrom (r : Register × Register) : State :=
  { State.reset with L := r.1, N := r.2, phase := .run, cnt := 256 }

theorem keystreamBytes_eq_streamBytes (key : KeyBus) (iv : IvBus) (n : Nat) :
    keystreamBytes key iv n = streamBytes n (runningFrom (canonical key iv)) :=
  (streamBytes_of_canonical n rfl rfl).symm

/-! ## The all-zero key and IV -/

theorem canonical_zero :
    canonical 0 0 = (0xBB5172ACD49E6D188A8B7554E25774CD, 0x3D5AC48773554E1ED5DF5164A0EEDBB9) := by
  refine canonical_of_halves (mid := (0xCDD42FD6D9960060C3CF83C803FF8007, 0x7F1FB5B9B8329E5F63CC0337FFFFFFF8)) ?_ ?_
  · decide +kernel
  · decide +kernel

theorem keystreamBytes_zero :
    keystreamBytes 0 0 16 =
      [0xF0, 0x9B, 0x7B, 0xF7, 0xD7, 0xF6, 0xB5, 0xC2, 0xDE, 0x2F, 0xFC, 0x73, 0xAC, 0x21, 0x39, 0x7F] := by
  rw [keystreamBytes_eq_streamBytes, canonical_zero]
  decide +kernel

theorem keyBus_zeros : keyBus (List.replicate 16 0) = 0 := by decide +kernel

theorem ivBus_zeros : ivBus (List.replicate 12 0) = 0 := by decide +kernel

/-! ## The counting key and IV -/

theorem canonical_counting :
    canonical 0x0F0E0D0C0B0A09080706050403020100 0x0B0A09080706050403020100 =
      (0x51F39C1F744F18FC8635EA0931735BC1, 0x58D467C679F2DFD6D3A8D646BF221806) := by
  refine canonical_of_halves (mid := (0x52C97A3572F86B3BC4515E8A629A648D, 0x48FB489958A4F980EA8C18C49859287B)) ?_ ?_
  · decide +kernel
  · decide +kernel

theorem keystreamBytes_counting :
    keystreamBytes 0x0F0E0D0C0B0A09080706050403020100 0x0B0A09080706050403020100 24 =
      [0x8A, 0x39, 0xB9, 0xAE, 0x1A, 0x47, 0xA6, 0xEA, 0x1C, 0xAC, 0x48, 0xD9, 0x71, 0x62, 0x9B, 0x5D, 0xDD, 0xF4, 0x52,
        0xE3, 0xFE, 0x3D, 0xC6, 0x56] := by
  rw [keystreamBytes_eq_streamBytes, canonical_counting]
  decide +kernel

theorem keyBus_counting :
    keyBus ((List.range 16).map (BitVec.ofNat 8)) = 0x0F0E0D0C0B0A09080706050403020100 := by decide +kernel

theorem ivBus_counting :
    ivBus ((List.range 12).map (BitVec.ofNat 8)) = 0x0B0A09080706050403020100 := by decide +kernel

/-- What INITIALIZE leaves and NEXT_BYTES then returns depends on the key and the IV only (R17, R67). -/
theorem exec_initialise_nextBytes {s : State} {K V : List Byte} (n : Nat) (ph : s.phase ≠ .init) (hK : K.length = 16)
    (hV : V.length = 12) :
    ∃ t u, exec (.initialise K V) s = .next t ∧ (t.L, t.N) = canonical (keyBus K) (ivBus V)
      ∧ exec (.nextBytes n none) t = .next u
      ∧ u.results = .bytes (keystreamBytes (keyBus K) (ivBus V) n) :: t.results := by
  obtain ⟨run, regs, -⟩ := initialiseOp_ready ph hK hV
  refine ⟨_, _, exec_initialise K V s, regs, exec_nextBytes_of_run n run, ?_⟩
  rw [deliver_results, streamBytes_deliver _ _ run, streamBytes_of_canonical n run regs, nexts_results]

/-- Settles O56: any state that is not busy is led to the evaluated canonical state, and reads its keystream. -/
theorem knownAnswers : Obligations.KnownAnswers := by
  refine ⟨fun s ph => ?_, fun s ph => ?_⟩
  · obtain ⟨t, u, exec_t, regs, exec_u, bytes⟩ :=
      exec_initialise_nextBytes 16 ph (List.length_replicate (a := 0)) (List.length_replicate (a := 0))
    rw [keyBus_zeros, ivBus_zeros, canonical_zero, Prod.mk.injEq] at regs
    obtain ⟨hL, hN⟩ := regs
    rw [keyBus_zeros, ivBus_zeros, keystreamBytes_zero] at bytes
    exact ⟨t, u, exec_t, hL, hN, exec_u, bytes⟩
  · obtain ⟨t, exec_t, returned⟩ := exec_process_returns (K := (List.range 16).map (BitVec.ofNat 8))
      (V := (List.range 12).map (BitVec.ofNat 8)) ((List.range 24).map fun i => BitVec.ofNat 8 (i * 3 + 1)) ph rfl rfl
    refine ⟨t, exec_t, returned.trans ?_⟩
    rw [keyBus_counting, ivBus_counting, List.length_map, List.length_range, keystreamBytes_counting]
    rfl

end Sys2Proof.Machine
